-- ==== Sys2Proof/Word.lean ====
section
/-! DEFINITION. The two word types of the machine (spec/00_scope.md R5): a nibble of 4 bits and an address of
8 bits, both unsigned, their arithmetic wrapping. -/

namespace Sys2Proof

/-- R5: an unsigned integer in 0..15, bit 3 the most significant. -/
abbrev Nibble := BitVec 4

/-- R5: an unsigned integer in 0..255, bit 7 the most significant. Addition on it is the ring addition of R6. -/
abbrev Addr := BitVec 8

end Sys2Proof
end

