-- ==== Sys2Proof/Machine/Flags.lean ====
section
/-! DEFINITION. The machine has no flags (spec/10_state.md R17). The one carry it computes is the second output of
`AddC`, a nibble consumed inside the instruction that produced it. -/

namespace Sys2Proof.Machine

/-- spec/40_alu.md R73 `AddC(a, b)`: the sum truncated to a nibble, and the carry nibble, 0 or 1. -/
def addC (a b : Nibble) : Nibble × Nibble :=
  let t := a.toNat + b.toNat
  (BitVec.ofNat 4 (t % 16), BitVec.ofNat 4 (t / 16))

end Sys2Proof.Machine
end

