-- ==== Sys2Proof/Machine/Alu.lean ====
section
/-! DEFINITION. The ten operators of the ALU block (spec/40_alu.md R72 to R84): the raw result over the integers, then
truncated to a nibble. DEDUCED: the formulas other than ADD's are the spec's decision D12 (log 10). -/

namespace Sys2Proof.Machine

/-- R72: the ten operators, in the order of their selector values 0 to 9 (D14). -/
inductive AluOp where
  | add
  | sub
  | mul
  | div
  | rem
  | shl
  | shr
  | and
  | or
  | xor
deriving DecidableEq, Repr

/-- R72, D14: the binary selector of an operator, where one is wanted. -/
def AluOp.selector : AluOp → Nat
  | .add => 0
  | .sub => 1
  | .mul => 2
  | .div => 3
  | .rem => 4
  | .shl => 5
  | .shr => 6
  | .and => 7
  | .or => 8
  | .xor => 9

/-- R74 `ADD`. -/
def aluAdd (a b : Nibble) : Nibble := BitVec.ofNat 4 (a.toNat + b.toNat)

/-- R75 `SUB`: the difference over the integers, truncated. -/
def aluSub (a b : Nibble) : Nibble := BitVec.ofInt 4 ((a.toNat : Int) - (b.toNat : Int))

/-- R76 `MUL`: the low nibble of the product. -/
def aluMul (a b : Nibble) : Nibble := BitVec.ofNat 4 (a.toNat * b.toNat)

/-- R77 `DIV`: the unsigned floor quotient; no value for a zero divisor (D13, log 10). -/
def aluDiv (a b : Nibble) : Option Nibble :=
  if b = 0#4 then none else some (BitVec.ofNat 4 (a.toNat / b.toNat))

/-- R78 `REM`: the unsigned remainder; no value for a zero divisor (D13, log 10). -/
def aluRem (a b : Nibble) : Option Nibble :=
  if b = 0#4 then none else some (BitVec.ofNat 4 (a.toNat % b.toNat))

/-- R79 `SHL`: by the whole nibble, zeros shifted in. -/
def aluShl (a b : Nibble) : Nibble := BitVec.ofNat 4 (a.toNat * 2 ^ b.toNat)

/-- R80 `SHR`: by the whole nibble, zeros shifted in. -/
def aluShr (a b : Nibble) : Nibble := BitVec.ofNat 4 (a.toNat / 2 ^ b.toNat)

/-- R81 `AND`, bit by bit. -/
def aluAnd (a b : Nibble) : Nibble := a &&& b

/-- R82 `OR`, bit by bit. -/
def aluOr (a b : Nibble) : Nibble := a ||| b

/-- R83 `XOR`, bit by bit. -/
def aluXor (a b : Nibble) : Nibble := a ^^^ b

/-- R72: the result port `r` of the block; `none` where the operator has no value. -/
def alu : AluOp → Nibble → Nibble → Option Nibble
  | .add, a, b => some (aluAdd a b)
  | .sub, a, b => some (aluSub a b)
  | .mul, a, b => some (aluMul a b)
  | .div, a, b => aluDiv a b
  | .rem, a, b => aluRem a b
  | .shl, a, b => some (aluShl a b)
  | .shr, a, b => some (aluShr a b)
  | .and, a, b => some (aluAnd a b)
  | .or, a, b => some (aluOr a b)
  | .xor, a, b => some (aluXor a b)

/-- R84: negation is `SUB(0, n)`. -/
def negate (n : Nibble) : Nibble := aluSub 0#4 n

end Sys2Proof.Machine
end

