-- ==== Sys2Proof/Config.lean ====
section
/-! DEFINITION. What an implementation fixes (spec/00_scope.md R4). -/

namespace Sys2Proof

/-- R4: the one parameter of a CPU instance whose value the source does not give. `spReset` is `SP_RESET`, which the
spec's decision D2 asks a model to take as a named field with default 0 (log 2). -/
structure Config where
  spReset : Addr := 0#8
deriving DecidableEq, Repr

/-- The spec's default configuration: `SP_RESET = 0` (R4, D2). -/
def Config.default : Config := {}

/-- R4: the number of memory cells, and the longest image reset takes (R71, R123). -/
abbrev memCells : Nat := 256

end Sys2Proof
end

