-- ==== Sys2Proof/Machine/State.lean ====
section
/-! DEFINITION. The state of one CPU instance on the memory array (spec/10_state.md R11), the reasons a step can stop,
and the state after reset. -/

namespace Sys2Proof.Machine

/-- R16: the run state. `halted` is terminal. -/
inductive RunState where
  | running
  | halted
deriving DecidableEq, Repr

/-- The memory array (R20, spec/20_memory.md R25): the written cells, as pairs of the address and the nibble held in
the low half of a byte, addresses strictly rising. A cell that is not listed is unwritten (log 12). -/
abbrev Memory := List Host.Cell

/-- Why a step can stop with a fault. The hardware has none (spec/60_exceptions.md R109). -/
inductive Fault where
  /-- Raised by Add and Subtract alone, if a ripple were not over after the number of steps that R99 gives as its
  bound. Safe: the model would stop where the hardware goes on; R99 says no state gets there (log 14). -/
  | rippleOverrun
deriving DecidableEq, Repr

/-- Why a step can be refused. -/
inductive Refusal where
  /-- Raised by `exec` alone, for an instruction without a meaning. Safe. No arm of `exec` answers it. -/
  | notModelled (mnemonic : String)
deriving DecidableEq, Repr

/-- R11: the complete state of one CPU instance on its memory array. -/
structure State where
  /-- R13: the address of the next opcode nibble. -/
  ip : Addr
  /-- R14: the address of the top-of-stack cell. -/
  sp : Addr
  /-- R15: the last-read latch, what a read of an unwritten cell returns. -/
  latch : Nibble
  /-- R16: running or halted. -/
  run : RunState
  /-- R20: the 256 cells. -/
  mem : Memory
deriving DecidableEq, Repr

/-- `ip <- a` (R7). -/
def State.setIp (s : State) (a : Addr) : State := { s with ip := a }

/-- `sp <- a` (R7). -/
def State.setSp (s : State) (a : Addr) : State := { s with sp := a }

/-- `latch <- v` (R7). -/
def State.setLatch (s : State) (v : Nibble) : State := { s with latch := v }

/-- `run <- r` (R7). -/
def State.setRun (s : State) (r : RunState) : State := { s with run := r }

/-- The array after an access (R7). -/
def State.setMem (s : State) (m : Memory) : State := { s with mem := m }

/-- R24, R123 with the empty image and the default configuration: the machine right after reset. The values of `ip`,
`sp` and `run` are the spec's decisions D3, D2 and D4 (log 2 to 4). -/
def State.reset : State where
  ip := 0#8
  sp := Config.default.spReset
  latch := 0#4
  run := .running
  mem := []

end Sys2Proof.Machine
end

