-- ==== Sys2Proof/Machine/Ops.lean ====
section
/-! DEFINITION. The named operations over the array and the registers (spec/20_memory.md): cell read and write, the two
bus operations with the open-bus latch, the stack primitives, advancing `ip`, and the one exceptional event. -/

namespace Sys2Proof.Machine

/-- R119: what the array holds at an address, without any side effect; `none` is `unwritten` (R20). -/
def Memory.find : Memory → Addr → Option Nibble
  | [], _ => none
  | (k, b) :: rest, a => if k = a.toNat then some (b.setWidth 4) else Memory.find rest a

/-- `cell[a] <- written(v)` (R28), keeping addresses rising. -/
def Memory.put : Memory → Addr → Nibble → Memory
  | [], a, v => [(a.toNat, v.setWidth 8)]
  | (k, b) :: rest, a, v =>
    if k < a.toNat then (k, b) :: Memory.put rest a v
    else if k = a.toNat then (k, v.setWidth 8) :: rest
    else (a.toNat, v.setWidth 8) :: (k, b) :: rest

/-- The array's canonical form from address `lo` upward: addresses strictly rising and below 256, each cell a nibble. -/
def Memory.wfFrom : Nat → Memory → Bool
  | _, [] => true
  | lo, (k, b) :: rest =>
    decide (lo ≤ k) && decide (k < memCells) && decide (b.toNat < 16) && Memory.wfFrom (k + 1) rest

/-- The array is in canonical form: equal arrays are then equal lists (log 12). -/
def Memory.wf (m : Memory) : Bool := Memory.wfFrom 0 m

/-- R56, R125: the cells of an image placed from address `k` upward. -/
def Memory.load : Nat → List Nibble → Memory
  | _, [] => []
  | k, v :: vs => (k, v.setWidth 8) :: Memory.load (k + 1) vs

/-- R29: true exactly when the cell is unwritten. DEDUCED: the polarity is the spec's decision D20 (log 17). -/
def isOpen (m : Memory) (a : Addr) : Bool := (Memory.find m a).isNone

/-- R27: the value a read by this instance returns, the cell's or, of an unwritten cell, the latch. -/
def busValue (s : State) (a : Addr) : Nibble := (Memory.find s.mem a).getD s.latch

/-- R27 `MemRead(a, 1)`. A written cell sets the latch; an unwritten one returns the latch and changes nothing, so in
both cases the latch afterwards is the value returned. -/
def memRead (a : Addr) (s : State) : Nibble × State :=
  match Memory.find s.mem a with
  | some v => (v, s.setLatch v)
  | none => (s.latch, s)

/-- R28 `MemWrite(a, 1, v)`: the cell becomes written and the latch takes the value. -/
def memWrite (a : Addr) (v : Nibble) (s : State) : State :=
  (s.setMem (Memory.put s.mem a v)).setLatch v

/-- R30 `Push(v)`: increment, then write. -/
def pushNibble (v : Nibble) (s : State) : State :=
  let s1 := s.setSp (s.sp + 1#8)
  memWrite s1.sp v s1

/-- R31 `Pop()`: read, then decrement. -/
def popNibble (s : State) : Nibble × State :=
  let r := memRead s.sp s
  (r.1, r.2.setSp (r.2.sp - 1#8))

/-- "advance ip" (R13, R26): `ip <- ip +8 1`. -/
def advance (s : State) : State := s.setIp (s.ip + 1#8)

/-- R92: `run <- Halted`. -/
def haltRun (s : State) : State := s.setRun .halted

/-- R93, R108, R112 `raise IllegalOpcode(op)`, the machine's one exceptional event: `run <- Halted` and nothing else is
saved, recorded or entered. There is no return from it (R113). -/
def raiseIllegalOpcode (s : State) : State := s.setRun .halted

end Sys2Proof.Machine
end

