-- ==== Sys2Proof/Machine/Arith.lean ====
section
/-! DEFINITION. Add and Subtract (spec/43_arith.md): the ripple down the stack, and the two instructions over it. -/

namespace Sys2Proof.Machine

/-- R99: no ripple of an exclusive-mode machine takes more steps than this. -/
def rippleBound : Nat := 257

/-- One pass through the body of R96's loop at address `a`: read, add the carry, write the sum back. Answers the carry
out and the state. -/
def rippleStep (a : Addr) (carry : Nibble) (s : State) : Nibble × State :=
  let r := memRead a s
  let t := addC r.1 carry
  (t.2, memWrite a t.1 r.2)

/-- R96 `Ripple`, from address `a` downward, at most `fuel` steps; the carry out of a step decides whether another
follows, so the body runs at least once (the spec's decision D9, log 7). `none` if `fuel` steps were not enough. -/
def ripple : Nat → Addr → Nibble → State → Option State
  | 0, _, _, _ => none
  | fuel + 1, a, carry, s =>
    let r := rippleStep a carry s
    if r.1 = 0#4 then some r.2 else ripple fuel (a - 1#8) r.1 r.2

/-- R96: the ripple starts at the top of the stack; `sp` itself is not moved by it (D18). -/
def rippleAtTop (carry : Nibble) (s : State) : Host.Outcome State Fault Refusal :=
  match ripple rippleBound s.sp carry s with
  | some s' => .next s'
  | none => .fault .rippleOverrun

/-- R97 Add: advance, pop the addend, ripple it. -/
def execAdd (s : State) : Host.Outcome State Fault Refusal :=
  let p := popNibble (advance s)
  rippleAtTop p.1 p.2

/-- R98 Subtract: advance (the spec's decision D10, log 8), pop the subtrahend, ripple its negation. -/
def execSubtract (s : State) : Host.Outcome State Fault Refusal :=
  let p := popNibble (advance s)
  rippleAtTop (negate p.1) p.2

end Sys2Proof.Machine
end

