-- ==== Sys2Proof/Machine/Basic.lean ====
section
/-! DEFINITION. Nop, Halt and the illegal opcodes (spec/41_cycle_nop_halt.md R91 to R93) and the stack instructions Push
and Pop (spec/42_stack.md). A meaning runs in the state after the instruction's fetch. -/

namespace Sys2Proof.Machine

/-- R91 Nop: advance `ip`. -/
def execNop (s : State) : Host.Outcome State Fault Refusal := .next (advance s)

/-- R92 Halt: `run <- Halted`; `ip` stays at the Halt nibble (the spec's decision D11, log 9). -/
def execHalt (s : State) : Host.Outcome State Fault Refusal := .next (haltRun s)

/-- R93, opcode 10. -/
def execIllegalA (s : State) : Host.Outcome State Fault Refusal := .next (raiseIllegalOpcode s)

/-- R93, opcode 11. -/
def execIllegalB (s : State) : Host.Outcome State Fault Refusal := .next (raiseIllegalOpcode s)

/-- R93, opcode 12. -/
def execIllegalC (s : State) : Host.Outcome State Fault Refusal := .next (raiseIllegalOpcode s)

/-- R93, opcode 13. -/
def execIllegalD (s : State) : Host.Outcome State Fault Refusal := .next (raiseIllegalOpcode s)

/-- R93, opcode 14. -/
def execIllegalE (s : State) : Host.Outcome State Fault Refusal := .next (raiseIllegalOpcode s)

/-- R94 Push: advance past the opcode, push the immediate (read by `fetch`), advance past the immediate. -/
def execPush (imm : Nibble) (s : State) : Host.Outcome State Fault Refusal :=
  .next (advance (pushNibble imm (advance s)))

/-- R95 Pop: advance, then pop and discard. The read still sets the latch. -/
def execPop (s : State) : Host.Outcome State Fault Refusal := .next (popNibble (advance s)).2

end Sys2Proof.Machine
end

