-- ==== Sys2Proof/Machine/Operands.lean ====
section
/-! DEFINITION. Operand forms (spec/30_encoding.md R52, spec/20_memory.md R32): a two-nibble address popped from the
stack, and the address helpers of spec/00_scope.md R6. -/

namespace Sys2Proof.Machine

/-- R6: `hi(a) = a[7:4] = a div 16`. -/
def hi (a : Addr) : Nibble := BitVec.ofNat 4 (a.toNat / 16)

/-- R6: `lo(a) = a[3:0] = a mod 16`. -/
def lo (a : Addr) : Nibble := BitVec.ofNat 4 (a.toNat % 16)

/-- R6: `combine(h, l) = {h, l} = 16*h + l`. -/
def combine (h l : Nibble) : Addr := BitVec.ofNat 8 (16 * h.toNat + l.toNat)

/-- R32 `PopAddr()`: the low nibble first, from the top of the stack, then the high nibble. -/
def popAddr (s : State) : Addr × State :=
  let l := popNibble s
  let h := popNibble l.2
  (combine h.1 l.1, h.2)

/-- R102: the return address pushed high nibble first, low nibble last. -/
def pushAddr (a : Addr) (s : State) : State := pushNibble (lo a) (pushNibble (hi a) s)

/-- R106: the address a Store in this state (its opcode already fetched) writes to. -/
def storeAddress (s : State) : Addr := (popAddr s).1

/-- R105: the address a Load in this state reads from. -/
def loadAddress (s : State) : Addr := (popAddr s).1

end Sys2Proof.Machine
end

