-- ==== Sys2Proof/Machine/Control.lean ====
section
/-! DEFINITION. Control transfer: JumpNonZero, Call, Return (spec/44_control.md). -/

namespace Sys2Proof.Machine

/-- R101 JumpNonZero: pop the target, pop the condition, and jump unless the condition is 0. -/
def execJumpNonZero (s : State) : Host.Outcome State Fault Refusal :=
  let t := popAddr s
  let c := popNibble t.2
  .next (if c.1 = 0#4 then advance c.2 else c.2.setIp t.1)

/-- R102 Call: pop the target, jump, push the address after the Call nibble (wrapping: D26, log 11). -/
def execCall (s : State) : Host.Outcome State Fault Refusal :=
  let t := popAddr s
  .next (pushAddr (t.2.ip + 1#8) (t.2.setIp t.1))

/-- R103 Return: pop the target and jump. -/
def execReturn (s : State) : Host.Outcome State Fault Refusal :=
  let t := popAddr s
  .next (t.2.setIp t.1)

end Sys2Proof.Machine
end

