-- ==== Sys2Proof/Machine/LoadStore.lean ====
section
/-! DEFINITION. Load and Store (spec/45_loadstore.md). -/

namespace Sys2Proof.Machine

/-- R105 Load: pop the address, read it (open bus included), push the nibble, advance. -/
def execLoad (s : State) : Host.Outcome State Fault Refusal :=
  let t := popAddr s
  let v := memRead t.1 t.2
  .next (advance (pushNibble v.1 v.2))

/-- R106 Store: pop the address, pop the data, write, advance. -/
def execStore (s : State) : Host.Outcome State Fault Refusal :=
  let t := popAddr s
  let d := popNibble t.2
  .next (advance (memWrite t.1 d.1 d.2))

end Sys2Proof.Machine
end

