-- ==== Sys2Proof/Syntax.lean ====
section
/-! DEFINITION. The instructions: one constructor per row of spec/opcode_table.json (spec/30_encoding.md R50). -/

namespace Sys2Proof

/-- R50 and R52: eleven instructions, whose operands other than Push's immediate are implicit, and the five illegal
opcode values of R53, which the table lists as rows of their own. -/
inductive Instr where
  /-- Nop, opcode 0 (R91). -/
  | nop
  /-- Push, opcode 1, with the immediate nibble of its second cell (R49, R51, R94). -/
  | push (imm : Nibble)
  /-- Pop, opcode 2 (R95). -/
  | pop
  /-- Add, opcode 3 (R97). -/
  | add
  /-- Subtract, opcode 4 (R98). -/
  | subtract
  /-- JumpNonZero, opcode 5 (R101). -/
  | jumpNonZero
  /-- Call, opcode 6 (R102). -/
  | call
  /-- Return, opcode 7 (R103). -/
  | ret
  /-- Load, opcode 8 (R105). -/
  | load
  /-- Store, opcode 9 (R106). -/
  | store
  /-- Illegal opcode 10 (R93). -/
  | illegalA
  /-- Illegal opcode 11 (R93). -/
  | illegalB
  /-- Illegal opcode 12 (R93). -/
  | illegalC
  /-- Illegal opcode 13 (R93). -/
  | illegalD
  /-- Illegal opcode 14 (R93). -/
  | illegalE
  /-- Halt, opcode 15 (R92). -/
  | halt
deriving DecidableEq, Repr

end Sys2Proof
end

