-- ==== Sys2Proof/WellFormed.lean ====
section
/-! DEFINITION. What makes syntax well formed. An instruction's only operand is a nibble, and every nibble is legal
(spec/30_encoding.md R54), so the type already holds every check on a single instruction; the checks that can fail
are on images (R71). -/

namespace Sys2Proof

/-- R54: every opcode value has a meaning in every state, and every value of Push's immediate is legal. -/
def Instr.wellFormed : Instr → Bool
  | .nop | .push _ | .pop | .add | .subtract | .jumpNonZero | .call | .ret | .load | .store => true
  | .illegalA | .illegalB | .illegalC | .illegalD | .illegalE | .halt => true

/-- R71 and the spec's decision D6: an image given to reset has at most 256 nibbles. -/
def imageWellFormed (image : List Nibble) : Bool := decide (image.length ≤ memCells)

end Sys2Proof
end

