-- ==== Sys2Proof/Decode.lean ====
section
/-! DEFINITION. Decoding and encoding of the instruction stream, a sequence of nibbles (spec/30_encoding.md R47 to R57).
The opcode numbers stand here only, in `decodeOpcode` and `opcodeOf` side by side (93_implementation_defined.md U8). -/

namespace Sys2Proof

/-- R50, R89: the instruction an opcode nibble selects, in every state; `imm` is the nibble of the second cell, which
only Push has. DEDUCED: the numbers other than 1 and 15 are the spec's decision D1 (log 1). A nibble is below 16, so the last
arm is 15 and no other value. -/
def decodeOpcode (op imm : Nibble) : Instr :=
  match op.toNat with
  | 0 => .nop
  | 1 => .push imm
  | 2 => .pop
  | 3 => .add
  | 4 => .subtract
  | 5 => .jumpNonZero
  | 6 => .call
  | 7 => .ret
  | 8 => .load
  | 9 => .store
  | 10 => .illegalA
  | 11 => .illegalB
  | 12 => .illegalC
  | 13 => .illegalD
  | 14 => .illegalE
  | _ => .halt

/-- R50: the opcode nibble of each instruction, the other direction of `decodeOpcode`. -/
def opcodeOf : Instr → Nibble
  | .nop => 0x0#4
  | .push _ => 0x1#4
  | .pop => 0x2#4
  | .add => 0x3#4
  | .subtract => 0x4#4
  | .jumpNonZero => 0x5#4
  | .call => 0x6#4
  | .ret => 0x7#4
  | .load => 0x8#4
  | .store => 0x9#4
  | .illegalA => 0xA#4
  | .illegalB => 0xB#4
  | .illegalC => 0xC#4
  | .illegalD => 0xD#4
  | .illegalE => 0xE#4
  | .halt => 0xF#4

/-- R55: the length in nibbles depends on the opcode alone, and only Push has two. -/
def opcodeLength (op : Nibble) : Nat := if op = 0x1#4 then 2 else 1

/-- R51: the immediate of an instruction's second cell, where it has one. -/
def immediateOf : Instr → List Nibble
  | .push imm => [imm]
  | .nop | .pop | .add | .subtract | .jumpNonZero | .call | .ret | .load | .store => []
  | .illegalA | .illegalB | .illegalC | .illegalD | .illegalE | .halt => []

/-- Why a finite sequence of nibbles holds no whole instruction. DESIGN CHOICE (log 27): the spec does not say what such a
sequence decodes to. The machine itself never meets these: its memory is a ring, and its decoder is total on one nibble
(R55). -/
inductive DecodeError where
  /-- there is no nibble at all -/
  | noOpcode
  /-- the sequence ends after a Push opcode -/
  | noImmediate
deriving DecidableEq, Repr

/-- R47 to R49, R55: the instruction at the head of a sequence of nibbles, and the rest. Total: every sequence either
decodes or is rejected by name. -/
def decode : List Nibble → Except DecodeError (Instr × List Nibble)
  | [] => .error .noOpcode
  | op :: rest =>
    if opcodeLength op = 2 then
      match rest with
      | [] => .error .noImmediate
      | imm :: rest' => .ok (decodeOpcode op imm, rest')
    else .ok (decodeOpcode op 0#4, rest)

/-- R48, R49: the nibbles of an instruction, the opcode at the lower address. -/
def encode (i : Instr) : List Nibble := opcodeOf i :: immediateOf i

/-- R56, R67: a program is the concatenation of its instructions' nibbles. -/
def encodeProgram (is : List Instr) : List Nibble := is.flatMap encode

/-- R57: disassembly from an instruction boundary, instruction after instruction; `fuel` bounds how many. DESIGN CHOICE
(log 27): an image that ends after a Push opcode is rejected whole, with none of its instructions given. -/
def disassembleFrom : Nat → List Nibble → Except DecodeError (List Instr)
  | _, [] => .ok []
  | 0, _ :: _ => .error .noOpcode
  | fuel + 1, n :: ns =>
    match decode (n :: ns) with
    | .error e => .error e
    | .ok (i, rest) =>
      match disassembleFrom fuel rest with
      | .error e => .error e
      | .ok is => .ok (i :: is)

/-- R57: disassembly of an image from address 0; an instruction is at least one nibble, so the length is fuel enough. -/
def disassemble (image : List Nibble) : Except DecodeError (List Instr) :=
  disassembleFrom image.length image

/-- The two cells, at `ip` and `ip +8 1`, that an opcode-table word stands for (log 15). Format N rows are one nibble,
bits 3:0; the Push row is the 8-bit value `16*opcode + imm`, opcode cell first (R49, opcode_table.json). Bits past
`nbits` are 0. -/
def tableWordCells (nbits w : Nat) : Nibble × Nibble :=
  let v := w % 2 ^ nbits
  if v < 16 then (BitVec.ofNat 4 v, 0#4) else (BitVec.ofNat 4 (v / 16), BitVec.ofNat 4 v)

/-- The instruction the decoder reads from an opcode-table word, its cells laid out as memory holds them. -/
def decodeTableWord (nbits w : Nat) : Option Instr :=
  match decode [(tableWordCells nbits w).1, (tableWordCells nbits w).2] with
  | .ok (i, _) => some i
  | .error _ => none

end Sys2Proof
end

