-- ==== Sys2Proof/Machine/Fetch.lean ====
section
/-! DEFINITION. Fetch and decode (spec/41_cycle_nop_halt.md R88, R89). Both nibbles of an instruction are ordinary bus
reads. DEDUCED: that they are is the spec's decisions D7 and D8 (log 6). -/

namespace Sys2Proof.Machine

/-- R88, R90: the opcode a cycle in this state fetches. -/
def fetchedOpcode (s : State) : Nibble := (memRead s.ip s).1

/-- R88, R89, and for Push the immediate read of R94: the instruction at `ip` and the state after the reads that fetch
it. Fetch does not advance `ip`. The immediate is read from `ip +8 1` after the opcode, so the latch it may return is
the opcode (R51). -/
def fetch (s : State) : Instr × State :=
  let o := memRead s.ip s
  if opcodeLength o.1 = 2 then
    let m := memRead (s.ip + 1#8) o.2
    (decodeOpcode o.1 m.1, m.2)
  else (decodeOpcode o.1 0#4, o.2)

end Sys2Proof.Machine
end

