-- ==== Sys2Proof/Machine/Step.lean ====
section
/-! DEFINITION. One step: one `cycle()` of an exclusive-mode CPU instance (spec/00_scope.md R9,
spec/41_cycle_nop_halt.md R87). -/

namespace Sys2Proof.Machine

/-- R87 `cycle()`: nothing at all while halted; otherwise fetch, decode and execute one whole instruction. -/
def step (s : State) : Host.Outcome State Fault Refusal :=
  match s.run with
  | .halted => .next s
  | .running => exec (fetch s).1 (fetch s).2

/-- The state with an opcode-table word's two cells stored where the next cycle fetches, at `ip` and `ip +8 1`, and the
instance running; nothing else changes, the latch included (log 15). -/
def State.withFetchWord (s : State) (nbits w : Nat) : State :=
  let c := tableWordCells nbits w
  { s with
    run := .running
    mem := Memory.put (Memory.put s.mem s.ip c.1) (s.ip + 1#8) c.2 }

end Sys2Proof.Machine
end

