-- ==== Sys2Proof/Machine/Assembler.lean ====
section
/-! DEFINITION. The assembler's back end (spec/30_encoding.md R59, R60, R63 to R68, R70): from the sequence of nodes to
the image. The assembler is surrounding software (spec/00_scope.md R3); its front end is Parser.lean. -/

namespace Sys2Proof.Machine

/-- R59, R60: a literal sequence of nibbles or a label reference. -/
inductive Datum where
  | literal (ns : List Nibble)
  | label (name : String)
deriving DecidableEq, Repr

/-- R58, R61: the nodes of a program. Subtract is a node of the source's syntax tree, though no token yields it (R68,
90_conflicts.md C10). -/
inductive Node where
  | labelDef (name : String)
  | comment (text : String)
  | filler (d : Datum)
  | push (d : Datum)
  | nop
  | pop
  | add
  | subtract
  | jumpNonZero
  | call
  | ret
  | load
  | store
  | halt
deriving DecidableEq, Repr

/-- R59: a literal is one or more digits. -/
def Datum.wellFormed : Datum → Bool
  | .literal ns => !ns.isEmpty
  | .label _ => true

/-- R59: every datum of the node is well formed. -/
def Node.wellFormed : Node → Bool
  | .filler d => d.wellFormed
  | .push d => d.wellFormed
  | .labelDef _ | .comment _ | .nop | .pop | .add | .subtract | .jumpNonZero | .call | .ret | .load | .store | .halt => true

/-- R64: a reference is always exactly two nibbles once resolved. -/
def Datum.size : Datum → Nat
  | .literal ns => ns.length
  | .label _ => 2

/-- R64: the length of a node in nibbles, known before any label is resolved. -/
def Node.size : Node → Nat
  | .labelDef _ | .comment _ => 0
  | .filler d => d.size
  | .push d => 2 * d.size
  | .nop | .pop | .add | .subtract | .jumpNonZero | .call | .ret | .load | .store | .halt => 1

/-- R65, pass 1: each label with the offset at which it is defined, the first node standing at `offset`. -/
def labelTable : Nat → List Node → List (String × Nat)
  | _, [] => []
  | offset, .labelDef name :: rest => (name, offset) :: labelTable offset rest
  | offset, n :: rest => labelTable (offset + n.size) rest

/-- The offset a table gives a label. -/
def labelOffset : List (String × Nat) → String → Option Nat
  | [], _ => none
  | (k, v) :: rest, name => if k = name then some v else labelOffset rest name

/-- Why nothing is assembled: points the source leaves open, refused (93_implementation_defined.md U10, log 19). -/
inductive AsmError where
  | duplicateLabel
  | offsetBeyondMemory (name : String)
deriving DecidableEq, Repr

/-- R66, pass 2: the nibbles of a datum, an address high nibble first, and a warning for an undefined label, which
becomes two zero nibbles. -/
def Datum.resolve (table : List (String × Nat)) : Datum → Except AsmError (List Nibble × List String)
  | .literal ns => .ok (ns, [])
  | .label name =>
    match labelOffset table name with
    | none => .ok ([0#4, 0#4], [name])
    | some v =>
      if v < memCells then .ok ([hi (BitVec.ofNat 8 v), lo (BitVec.ofNat 8 v)], [])
      else .error (.offsetBeyondMemory name)

/-- R67: `[1, imm]` for each nibble of a push. -/
def pushNibbles : List Nibble → List Nibble
  | [] => []
  | n :: ns => encode (.push n) ++ pushNibbles ns

/-- R67: the nibbles of one node and its warnings. -/
def Node.emit (table : List (String × Nat)) : Node → Except AsmError (List Nibble × List String)
  | .labelDef _ => .ok ([], [])
  | .comment _ => .ok ([], [])
  | .filler d => d.resolve table
  | .push d =>
    match d.resolve table with
    | .error e => .error e
    | .ok (ns, ws) => .ok (pushNibbles ns, ws)
  | .nop => .ok (encode .nop, [])
  | .pop => .ok (encode .pop, [])
  | .add => .ok (encode .add, [])
  | .subtract => .ok (encode .subtract, [])
  | .jumpNonZero => .ok (encode .jumpNonZero, [])
  | .call => .ok (encode .call, [])
  | .ret => .ok (encode .ret, [])
  | .load => .ok (encode .load, [])
  | .store => .ok (encode .store, [])
  | .halt => .ok (encode .halt, [])

/-- R67: the nodes' encodings concatenated in order, with the warnings. -/
def emitNodes (table : List (String × Nat)) : List Node → Except AsmError (List Nibble × List String)
  | [] => .ok ([], [])
  | n :: rest =>
    match n.emit table with
    | .error e => .error e
    | .ok (ns, ws) =>
      match emitNodes table rest with
      | .error e => .error e
      | .ok (ns', ws') => .ok (ns ++ ns', ws ++ ws')

/-- Whether some name stands twice in a list. -/
def hasRepeat : List String → Bool
  | [] => false
  | x :: xs => xs.contains x || hasRepeat xs

/-- R65 to R67: the two passes over a program loaded from address 0, its image and its warnings. DESIGN CHOICE (log 25): a
program longer than 256 nibbles is assembled all the same, with no error and no warning, a point R71 leaves open; no
reset takes its image (log 5); and of several failures a label defined twice is reported first, then the first node's
(log 29). -/
def assemble (nodes : List Node) : Except AsmError (List Nibble × List String) :=
  let table := labelTable 0 nodes
  if hasRepeat (table.map (fun p => p.1)) then .error .duplicateLabel else emitNodes table nodes

end Sys2Proof.Machine
end

