-- ==== Sys2Proof/Machine/Image.lean ====
section
/-! DEFINITION. The memory dump text format (spec/70_reset_and_hazards.md R126 to R128), from characters to an image.
The loader is surrounding software (R3); what R126 leaves open is refused (log 19). -/

namespace Sys2Proof.Machine

/-- Why a dump is not loaded. -/
inductive DumpError where
  /-- R127: a character that is neither a hex digit nor a space, with its position; DESIGN CHOICE (log 26): the number of
  characters of the text before it, spaces among them, so the first character's position is 0 -/
  | badCharacter (position : Nat)
  /-- the two readings of R126's limit, spaces counted or not, differ on this text (log 19) -/
  | lengthUnclear
deriving DecidableEq, Repr

/-- R56: one hex character, 0 to 9 or A to F, is one nibble. -/
def hexNibble (c : Char) : Option Nibble :=
  let n := c.toNat
  if 48 ≤ n ∧ n ≤ 57 then some (BitVec.ofNat 4 (n - 48))
  else if 65 ≤ n ∧ n ≤ 70 then some (BitVec.ofNat 4 (n - 55))
  else none

/-- R126: the character that is skipped and gives no cell. -/
def isDumpSpace (c : Char) : Bool := c.toNat = 32

/-- R126: each hex character one cell, spaces skipped, anything else fatal with its position (R127), `pos` being the
position of the first character. DESIGN CHOICE (log 26): a position counts every character from 0, spaces too. -/
def dumpNibbles : Nat → List Char → Except DumpError (List Nibble)
  | _, [] => .ok []
  | pos, c :: cs =>
    if isDumpSpace c then dumpNibbles (pos + 1) cs
    else
      match hexNibble c with
      | none => .error (.badCharacter pos)
      | some v =>
        match dumpNibbles (pos + 1) cs with
        | .error e => .error e
        | .ok vs => .ok (v :: vs)

/-- R126, read as a limit on the characters other than spaces: the text up to the last of the first `limit` of them. -/
def uptoNonSpaces : Nat → List Char → List Char
  | 0, _ => []
  | _ + 1, [] => []
  | limit + 1, c :: cs => c :: if isDumpSpace c then uptoNonSpaces (limit + 1) cs else uptoNonSpaces limit cs

/-- R126, R127, R128: the image of a dump, at most 256 characters consulted; a failed load gives no image at all. R126
leaves open whether the 256 count spaces: the outcome is the one both readings give, and a text on which they differ is
refused (log 19). -/
def loadDump (text : List Char) : Except DumpError (List Nibble) :=
  let countingSpaces := dumpNibbles 0 (text.take memCells)
  if countingSpaces = dumpNibbles 0 (uptoNonSpaces memCells text) then countingSpaces else .error .lengthUnclear

end Sys2Proof.Machine
end

