-- ==== Sys2Proof/Machine/Parser.lean ====
section
/-! DEFINITION. The assembler's text (spec/30_encoding.md R58 to R63, R68, R69), from characters to nodes. What the
source leaves open is refused by name, as 93_implementation_defined.md U10 asks (log 19). -/

namespace Sys2Proof.Machine

/-- Why a text gives no nodes and so no image (R69). -/
inductive ParseError where
  /-- R69: a token that begins as none of R60, R61, R63 does, or has more after a single-character sigil -/
  | unrecognizedToken (token : String)
  /-- R69: in a push or a filler, `x` with no digit or with a character that is no hex digit; and, DESIGN CHOICE (log 30), a
  datum that is empty or begins with neither `x` nor a quote -/
  | malformedLiteral (token : String)
  /-- R69 -/
  | unterminatedComment
  /-- open: whether lower-case hex digits are accepted (N13, log 19) -/
  | digitCase (token : String)
  /-- open: what an identifier may contain (N14, log 19); and, DESIGN CHOICE (log 30), a quote with nothing after it -/
  | identifier (token : String)
  /-- open: whether parentheses nest (N15, log 19) -/
  | nestedComment
  /-- open: a comment with no white space between it and a token or another comment (log 19) -/
  | commentAgainstToken
deriving DecidableEq, Repr

/-- R58: the characters that separate tokens: tab, line feed, carriage return, space. -/
def isSeparator (c : Char) : Bool := c.toNat = 9 || c.toNat = 10 || c.toNat = 13 || c.toNat = 32

/-- `(` -/
def isOpenParen (c : Char) : Bool := c.toNat = 40

/-- `)` -/
def isCloseParen (c : Char) : Bool := c.toNat = 41

/-- R58, R62: a token or a comment. -/
inductive Lexeme where
  | word (cs : List Char)
  | comment (cs : List Char)
deriving DecidableEq, Repr

/-- Where the walk over the text stands; the characters read of a token or a comment are held last first. -/
inductive LexPoint where
  | between
  | inWord (read : List Char)
  | inComment (read : List Char)
  | afterComment
deriving DecidableEq, Repr

/-- R58, R62: the tokens and comments of a text. A comment consumes every character up to its close-paren. DESIGN CHOICE
(log 19): what follows a comment with no white space between, be it a token or another comment, is refused. -/
def lex : LexPoint → List Char → Except ParseError (List Lexeme)
  | .between, [] => .ok []
  | .afterComment, [] => .ok []
  | .inWord r, [] => .ok [.word r.reverse]
  | .inComment _, [] => .error .unterminatedComment
  | .between, c :: cs =>
    if isSeparator c then lex .between cs
    else if isOpenParen c then lex (.inComment []) cs
    else lex (.inWord [c]) cs
  | .afterComment, c :: cs => if isSeparator c then lex .between cs else .error .commentAgainstToken
  | .inWord r, c :: cs =>
    if isSeparator c then (lex .between cs).map (fun l => .word r.reverse :: l)
    else if isOpenParen c then .error .commentAgainstToken
    else lex (.inWord (c :: r)) cs
  | .inComment r, c :: cs =>
    if isCloseParen c then (lex .afterComment cs).map (fun l => .comment r.reverse :: l)
    else if isOpenParen c then .error .nestedComment
    else lex (.inComment (c :: r)) cs

/-- R59: the digits of a literal; the first character that is no digit decides the failure (log 29). -/
def literalDigits (token : String) : List Char → Except ParseError (List Nibble)
  | [] => .ok []
  | c :: cs =>
    match hexNibble c with
    | some v => (literalDigits token cs).map (v :: ·)
    | none => .error (if 97 ≤ c.toNat ∧ c.toNat ≤ 102 then .digitCase token else .malformedLiteral token)

/-- A letter or an underscore. -/
def isIdentifierStart (c : Char) : Bool :=
  (65 ≤ c.toNat && c.toNat ≤ 90) || (97 ≤ c.toNat && c.toNat ≤ 122) || c.toNat = 95

/-- What every reading of "identifier" admits: a letter or an underscore, then letters, underscores and digits. Any other
sequence is left open by the source and refused (N14, log 19). -/
def isIdentifier : List Char → Bool
  | [] => false
  | c :: cs => isIdentifierStart c && cs.all (fun d => isIdentifierStart d || (48 ≤ d.toNat && d.toNat ≤ 57))

/-- R60: the name after a label's quote. -/
def parseName (token : String) (cs : List Char) : Except ParseError String :=
  if isIdentifier cs then .ok (String.ofList cs) else .error (.identifier token)

/-- R59, R60: the datum of a push or a filler: `x` and one or more hex digits, or a quote and a name. DESIGN CHOICE (log
30): a datum that is empty or begins otherwise, as in `<5` or `.q`, is reported as a malformed literal and not as an
unrecognized token. -/
def parseDatum (token : String) : List Char → Except ParseError Datum
  | [] => .error (.malformedLiteral token)
  | c :: cs =>
    if c.toNat = 120 then
      if cs.isEmpty then .error (.malformedLiteral token) else (literalDigits token cs).map Datum.literal
    else if c.toNat = 39 then (parseName token cs).map Datum.label
    else .error (.malformedLiteral token)

/-- R60, R61, R63: one token. No token gives Subtract (R68). -/
def parseWord (cs : List Char) : Except ParseError Node :=
  let token := String.ofList cs
  match cs with
  | ['?'] => .ok .nop
  | ['>'] => .ok .pop
  | ['+'] => .ok .add
  | ['j'] => .ok .jumpNonZero
  | ['c'] => .ok .call
  | ['r'] => .ok .ret
  | ['l'] => .ok .load
  | ['s'] => .ok .store
  | ['!'] => .ok .halt
  | '<' :: d => (parseDatum token d).map Node.push
  | '.' :: d => (parseDatum token d).map Node.filler
  | '\'' :: name => (parseName token name).map Node.labelDef
  | _ => .error (.unrecognizedToken token)

/-- A token or a comment as a node. -/
def Lexeme.node : Lexeme → Except ParseError Node
  | .word cs => parseWord cs
  | .comment cs => .ok (.comment (String.ofList cs))

/-- Each token and comment as a node, in order; the failure of the first token that fails is the list's (R69, log 29). -/
def parseLexemes : List Lexeme → Except ParseError (List Node)
  | [] => .ok []
  | l :: ls =>
    match l.node with
    | .error e => .error e
    | .ok n => (parseLexemes ls).map (n :: ·)

/-- R58: the nodes of a source text. DESIGN CHOICE (log 29): of several failures the one reported is the first in separating
the text into tokens and comments, if there is one, and else that of the first token that fails. -/
def parseText (text : List Char) : Except ParseError (List Node) :=
  match lex .between text with
  | .error e => .error e
  | .ok ls => parseLexemes ls

/-- Why a source text gives no image. -/
inductive SourceError where
  | parse (e : ParseError)
  | assembly (e : AsmError)
deriving DecidableEq, Repr

/-- R58 to R69: the image of a source text, with the warnings; a failure of the text is reported before any of the nodes
(log 29). -/
def assembleText (text : List Char) : Except SourceError (List Nibble × List String) :=
  match parseText text with
  | .error e => .error (.parse e)
  | .ok nodes =>
    match assemble nodes with
    | .error e => .error (.assembly e)
    | .ok r => .ok r

end Sys2Proof.Machine
end

