-- ==== Sys2Proof/Machine/HostOps.lean ====
section
/-! DEFINITION. What the outside can do to an exclusive-mode core (spec/60_exceptions.md R117 to R119,
spec/70_reset_and_hazards.md R123): reset with an image, `cycle()`, `write`, and observation. -/

namespace Sys2Proof.Machine

/-- R123 `reset(IMAGE)`: every register at its reset value, every cell unwritten, then the image from address 0. A longer
image than R71 admits is refused (`none`). Loading sets no latch (R125). -/
def resetWith (cfg : Config) (image : List Nibble) : Option State :=
  if imageWellFormed image then
    some { ip := 0#8, sp := cfg.spReset, latch := 0#4, run := .running, mem := Memory.load 0 image }
  else none

/-- R118 host `write(addr, nibble)`: exactly the instance's own `MemWrite`, in either run state (the spec's decision
D19, log 17). -/
def hostWrite (a : Addr) (v : Nibble) (s : State) : State := memWrite a v s

/-- What the host does to a core (R117), observation apart. -/
inductive HostOp where
  | reset (image : List Nibble)
  | cycle
  | write (a : Addr) (v : Nibble)
deriving DecidableEq, Repr

/-- R117: one host operation on an exclusive-mode core. `none` where the operation is not admitted (an image too long)
or the cycle does not end in a next state. -/
def hostApply (cfg : Config) (op : HostOp) (s : State) : Option State :=
  match op with
  | .reset image => resetWith cfg image
  | .write a v => some (hostWrite a v s)
  | .cycle =>
    match step s with
    | .next t => some t
    | .fault _ => none
    | .refused _ => none

/-- R117: host operations one after another; in exclusive mode each happens between cycles (R118, R119). -/
def hostRun (cfg : Config) : List HostOp → State → Option State
  | [], s => some s
  | op :: ops, s =>
    match hostApply cfg op s with
    | some t => hostRun cfg ops t
    | none => none

/-- R119: what the host sees of an instance's registers. -/
structure Observation where
  ip : Addr
  sp : Addr
  latch : Nibble
  run : RunState
deriving DecidableEq, Repr

/-- R119: observing an instance; a function of the state that changes nothing. -/
def observe (s : State) : Observation where
  ip := s.ip
  sp := s.sp
  latch := s.latch
  run := s.run

/-- R119: observing a cell, its value if written, nothing if unwritten; never the latch in its place. -/
def observeCell (s : State) (a : Addr) : Option Nibble := Memory.find s.mem a

end Sys2Proof.Machine
end

