-- ==== Sys2Proof/Machine/Ports.lean ====
section
/-! DEFINITION. The logical ports of the two blocks (spec/20_memory.md R38, spec/40_alu.md R72) and the register layout
of spec/10_state.md R18. DEDUCED: all three are the spec's own decisions D21 and D23 (log 18). -/

namespace Sys2Proof.Machine

/-- R38: the inputs of the memory array block. -/
structure ArrayIn where
  addr : Addr
  we : Bool
  re : Bool
  wdata : Nibble
deriving DecidableEq, Repr

/-- R38: its outputs; `rdata` is `none` where it is not driven. -/
structure ArrayOut where
  rvalid : Bool
  rdata : Option Nibble
deriving DecidableEq, Repr

/-- R38: what the block drives for an address. -/
def arrayOut (m : Memory) (p : ArrayIn) : ArrayOut where
  rvalid := !(isOpen m p.addr)
  rdata := Memory.find m p.addr

/-- R38: the array serves one request at a time, so a read and a write together are no request (`none`). DESIGN CHOICE
(log 28): while a write is served the outputs show the cell as it stood before the write. -/
def arrayServe (m : Memory) (p : ArrayIn) : Option (ArrayOut × Memory) :=
  if p.we && p.re then none
  else some (arrayOut m p, if p.we then Memory.put m p.addr p.wdata else m)

/-- R38: the open-bus latch sits in the CPU instance and captures `rdata` on a valid read, `wdata` on its own write. -/
def latchCapture (latch : Nibble) (p : ArrayIn) (o : ArrayOut) : Nibble :=
  if p.we then p.wdata else if p.re then o.rdata.getD latch else latch

/-- R72: the outputs of the ALU block. -/
structure AluOut where
  r : Option Nibble
  sum : Nibble
  carry : Nibble
deriving DecidableEq, Repr

/-- R72: the ALU block, a combinational function of its inputs. -/
def aluPorts (op : AluOp) (a b : Nibble) : AluOut where
  r := alu op a b
  sum := (addC a b).1
  carry := (addC a b).2

/-- R16, R18: the `halted` bit. -/
def RunState.haltedBit : RunState → BitVec 1
  | .running => 0#1
  | .halted => 1#1

end Sys2Proof.Machine
end

