-- ==== Sys2Proof/Machine/Shared.lean ====
section
/-! DEFINITION. Shared mode (spec/20_memory.md R40 to R44, spec/10_state.md R21, R22): several CPU instances on one
array, one step being one nibble access of one instance. The order of accesses within an instruction is R42's. The
order among instances is an argument of a run: every order is admitted (R41, log 16). -/

namespace Sys2Proof.Machine

/-- One access to the array, as the instance asks for it (R41). -/
inductive BusRequest where
  | read (a : Addr)
  | write (a : Addr) (v : Nibble)
deriving DecidableEq, Repr

/-- One access to the array, with the value that moved: the trace notation `Raa=v`, `Waa=v` of 95_test_vectors.md. -/
inductive Access where
  | read (a : Addr) (v : Nibble)
  | write (a : Addr) (v : Nibble)
deriving DecidableEq, Repr

/-- R22: where an instruction in progress stands, named by the access it waits for, with its temporaries. -/
inductive Flight where
  /-- between cycles: the next access is a fetch -/
  | idle
  /-- Push, before its immediate read -/
  | pushImm
  /-- Push, before its write of `imm` -/
  | pushWrite (imm : Nibble)
  /-- Pop, before its read -/
  | popRead
  /-- Add, before its pop -/
  | addPop
  /-- Subtract, before its pop -/
  | subPop
  /-- Add or Subtract, before the read of a ripple step at `a` with `carry` coming in -/
  | rippleRead (a : Addr) (carry : Nibble)
  /-- Add or Subtract, before the write of a ripple step's `sum` at `a`, its carry out being `carry` -/
  | rippleWrite (a : Addr) (sum carry : Nibble)
  /-- JumpNonZero, before the pop of the low nibble -/
  | jumpLo
  /-- JumpNonZero, before the pop of the high nibble -/
  | jumpHi (loN : Nibble)
  /-- JumpNonZero, before the pop of the condition -/
  | jumpCond (target : Addr)
  /-- Call, before the pop of the low nibble -/
  | callLo
  /-- Call, before the pop of the high nibble -/
  | callHi (loN : Nibble)
  /-- Call, before the push of the return address's high nibble -/
  | callPushHi (ret : Addr)
  /-- Call, before the push of the return address's low nibble -/
  | callPushLo (ret : Addr)
  /-- Return, before the pop of the low nibble -/
  | retLo
  /-- Return, before the pop of the high nibble -/
  | retHi (loN : Nibble)
  /-- Load, before the pop of the low nibble -/
  | loadLo
  /-- Load, before the pop of the high nibble -/
  | loadHi (loN : Nibble)
  /-- Load, before the data read -/
  | loadRead (a : Addr)
  /-- Load, before the push of the nibble read -/
  | loadPush (v : Nibble)
  /-- Store, before the pop of the low nibble -/
  | storeLo
  /-- Store, before the pop of the high nibble -/
  | storeHi (loN : Nibble)
  /-- Store, before the pop of the data -/
  | storeData (a : Addr)
  /-- Store, before the data write -/
  | storeWrite (a : Addr) (v : Nibble)
deriving DecidableEq, Repr

/-- R42: the access an instance makes next; `none` for a halted instance between cycles (R40, R87). -/
def request (f : Flight) (s : State) : Option BusRequest :=
  match f with
  | .idle =>
    match s.run with
    | .halted => none
    | .running => some (.read s.ip)
  | .pushImm => some (.read s.ip)
  | .pushWrite imm => some (.write (s.sp + 1#8) imm)
  | .popRead | .addPop | .subPop => some (.read s.sp)
  | .rippleRead a _ => some (.read a)
  | .rippleWrite a sum _ => some (.write a sum)
  | .jumpLo | .jumpHi _ | .jumpCond _ => some (.read s.sp)
  | .callLo | .callHi _ => some (.read s.sp)
  | .callPushHi ret => some (.write (s.sp + 1#8) (hi ret))
  | .callPushLo ret => some (.write (s.sp + 1#8) (lo ret))
  | .retLo | .retHi _ => some (.read s.sp)
  | .loadLo | .loadHi _ => some (.read s.sp)
  | .loadRead a => some (.read a)
  | .loadPush v => some (.write (s.sp + 1#8) v)
  | .storeLo | .storeHi _ | .storeData _ => some (.read s.sp)
  | .storeWrite a v => some (.write a v)

/-- R30, the part of a push that is not the access: `sp <- sp +8 1`. -/
def spUp (s : State) : State := s.setSp (s.sp + 1#8)

/-- R31, the part of a pop that is not the access: `sp <- sp -8 1`. -/
def spDown (s : State) : State := s.setSp (s.sp - 1#8)

/-- R87, R89: what a fetched instruction does before its next access. -/
def beginInstr (i : Instr) (s : State) : Flight × State :=
  match i with
  | .nop => (.idle, advance s)
  | .push _ => (.pushImm, advance s)
  | .pop => (.popRead, advance s)
  | .add => (.addPop, advance s)
  | .subtract => (.subPop, advance s)
  | .jumpNonZero => (.jumpLo, s)
  | .call => (.callLo, s)
  | .ret => (.retLo, s)
  | .load => (.loadLo, s)
  | .store => (.storeLo, s)
  | .illegalA | .illegalB | .illegalC | .illegalD | .illegalE => (.idle, raiseIllegalOpcode s)
  | .halt => (.idle, haltRun s)

/-- How the instruction goes on once its access is done, `v` being the nibble read or written. -/
def resume (f : Flight) (v : Nibble) (s : State) : Flight × State :=
  match f with
  | .idle => beginInstr (decodeOpcode v 0#4) s
  | .pushImm => (.pushWrite v, s)
  | .pushWrite _ => (.idle, advance (spUp s))
  | .popRead => (.idle, spDown s)
  | .addPop => (.rippleRead (spDown s).sp v, spDown s)
  | .subPop => (.rippleRead (spDown s).sp (negate v), spDown s)
  | .rippleRead a carry => (.rippleWrite a (addC v carry).1 (addC v carry).2, s)
  | .rippleWrite a _ carry => (if carry = 0#4 then .idle else .rippleRead (a - 1#8) carry, s)
  | .jumpLo => (.jumpHi v, spDown s)
  | .jumpHi loN => (.jumpCond (combine v loN), spDown s)
  | .jumpCond target => (.idle, if v = 0#4 then advance (spDown s) else (spDown s).setIp target)
  | .callLo => (.callHi v, spDown s)
  | .callHi loN => (.callPushHi (s.ip + 1#8), (spDown s).setIp (combine v loN))
  | .callPushHi ret => (.callPushLo ret, spUp s)
  | .callPushLo _ => (.idle, spUp s)
  | .retLo => (.retHi v, spDown s)
  | .retHi loN => (.idle, (spDown s).setIp (combine v loN))
  | .loadLo => (.loadHi v, spDown s)
  | .loadHi loN => (.loadRead (combine v loN), spDown s)
  | .loadRead _ => (.loadPush v, s)
  | .loadPush _ => (.idle, advance (spUp s))
  | .storeLo => (.storeHi v, spDown s)
  | .storeHi loN => (.storeData (combine v loN), spDown s)
  | .storeData a => (.storeWrite a v, spDown s)
  | .storeWrite _ _ => (.idle, advance s)

/-- The access `request` asks for, as it takes place: the value moved and the state just after it (R27, R28). -/
def perform (q : BusRequest) (s : State) : Access × Nibble × State :=
  match q with
  | .read a => (.read a (memRead a s).1, (memRead a s).1, (memRead a s).2)
  | .write a v => (.write a v, v, memWrite a v s)

/-- R41: one access of one instance, indivisible, and the instruction going on to wait for its next one. A halted
instance between cycles makes none. -/
def accessStep (f : Flight) (s : State) : Flight × State :=
  match request f s with
  | none => (f, s)
  | some q => resume f (perform q s).2.1 (perform q s).2.2

/-- The accesses of an instance that nothing interrupts, up to the end of its cycle, and the state there; `none` if
`fuel` accesses are not enough. -/
def runAccesses : Nat → Flight → State → Option (List Access × State)
  | 0, _, _ => none
  | fuel + 1, f, s =>
    match request f s with
    | none => some ([], s)
    | some q =>
      let p := perform q s
      let r := resume f p.2.1 p.2.2
      if r.1 = .idle then some ([p.1], r.2)
      else
        match runAccesses fuel r.1 r.2 with
        | some (tr, t) => some (p.1 :: tr, t)
        | none => none

/-- R137: the most accesses one cycle makes in exclusive mode, two and two for each of R99's steps. -/
def accessBound : Nat := 2 + 2 * rippleBound

/-- R42: the accesses of a cycle in order, no other agent acting, and the state at its end. -/
def cycleAccesses (s : State) : Option (List Access × State) := runAccesses accessBound .idle s

/-- R21: what is private to one CPU instance. -/
structure Instance where
  ip : Addr
  sp : Addr
  latch : Nibble
  run : RunState
  flight : Flight
deriving DecidableEq, Repr

/-- R11, R21: `NCPU` instances on one array; `NCPU` is the length of the list (D15). -/
structure System where
  mem : Memory
  cpus : List Instance
deriving DecidableEq, Repr

/-- An instance together with the shared array, seen as the state its accesses act on. -/
def Instance.view (c : Instance) (m : Memory) : State where
  ip := c.ip
  sp := c.sp
  latch := c.latch
  run := c.run
  mem := m

/-- The private part of a state, with an instruction in flight. -/
def Instance.ofView (f : Flight) (s : State) : Instance where
  ip := s.ip
  sp := s.sp
  latch := s.latch
  run := s.run
  flight := f

/-- What can happen next in a shared-mode system (R40, R41): an instance's next access (the first of a cycle standing
for the host's call of `cycle()`), a host write through an instance, or a reset. -/
inductive Event where
  | access (cpu : Nat)
  | hostWrite (cpu : Nat) (a : Addr) (v : Nibble)
  | reset (image : List Nibble)
deriving DecidableEq, Repr

/-- R123, R24, D15: `ncpu` instances, all at the same reset values, none with an instruction in flight. -/
def System.reset (cfg : Config) (ncpu : Nat) (image : List Nibble) : Option System :=
  if imageWellFormed image && decide (1 ≤ ncpu) then
    some
      { mem := Memory.load 0 image
        cpus := List.replicate ncpu
          { ip := 0#8, sp := cfg.spReset, latch := 0#4, run := .running, flight := .idle } }
  else none

/-- R41: one event of the total order. `none` for an event the system has no place for: an instance it does not have,
or an image too long (log 22). DESIGN CHOICE (log 24): a reset may come at any point of the total order and drops every
instruction in flight, the accesses it has made standing for nothing once the array is loaded anew; the spec gives reset
an effect between cycles only (R24). -/
def System.apply (cfg : Config) (e : Event) (y : System) : Option System :=
  match e with
  | .access k =>
    match y.cpus[k]? with
    | none => none
    | some c =>
      let r := accessStep c.flight (c.view y.mem)
      some { mem := r.2.mem, cpus := y.cpus.set k (Instance.ofView r.1 r.2) }
  | .hostWrite k a v =>
    match y.cpus[k]? with
    | none => none
    | some c =>
      let s := memWrite a v (c.view y.mem)
      some { mem := s.mem, cpus := y.cpus.set k (Instance.ofView c.flight s) }
  | .reset image => System.reset cfg y.cpus.length image

/-- R41: a total order of events, one after another. -/
def System.runEvents (cfg : Config) : List Event → System → Option System
  | [], y => some y
  | e :: es, y =>
    match System.apply cfg e y with
    | some y' => System.runEvents cfg es y'
    | none => none

/-- D27: the host sees an instance's registers only between that instance's cycles (log 17). -/
def System.observeCpu (y : System) (k : Nat) : Option (Addr × Addr × Nibble × RunState) :=
  match y.cpus[k]? with
  | none => none
  | some c => if c.flight = .idle then some (c.ip, c.sp, c.latch, c.run) else none

/-- D27, R119: a cell is observable at any point of the total order. -/
def System.observeCell (y : System) (a : Addr) : Option Nibble := Memory.find y.mem a

/-- R122: a run of a system is over when every instance is halted. -/
def System.over (y : System) : Bool := y.cpus.all (fun c => decide (c.run = .halted))

end Sys2Proof.Machine
end

