-- ==== Sys2Proof/Safety.lean ====
section
/-! DEFINITION. The terms in which claims about the machine are stated: invariants, the end of a run
(spec/60_exceptions.md R122), and a stack region read as a number (spec/43_arith.md R100). -/

namespace Sys2Proof

open Sys2Proof.Machine

/-- The invariant of the array: its canonical form (log 12). -/
def Safety.Inv (s : State) : Prop := Memory.wf s.mem = true

/-- R20, R24: every cell that is written in `s` is still written in `t`. -/
def Safety.keepsWritten (m m' : Memory) : Prop := ∀ a : Addr, isOpen m a = false → isOpen m' a = false

/-- R122: the run of an instance is over. -/
def Safety.over (s : State) : Prop := s.run = .halted

/-- R122, D28: the run is over by a Halt and not by an illegal opcode, told by the latch (R93). -/
def Safety.overByHalt (s : State) : Prop := s.run = .halted ∧ s.latch = 0xF#4

/-- R93: the five instructions that are illegal opcodes. -/
def Safety.isIllegal : Instr → Bool
  | .illegalA | .illegalB | .illegalC | .illegalD | .illegalE => true
  | .nop | .push _ | .pop | .add | .subtract | .jumpNonZero | .call | .ret | .load | .store | .halt => false

/-- R14: the net change of `sp` per instruction, modulo 256. -/
def Safety.spChange : Instr → Addr
  | .nop | .call | .halt => 0#8
  | .illegalA | .illegalB | .illegalC | .illegalD | .illegalE => 0#8
  | .push _ => 1#8
  | .pop | .add | .subtract | .load => -1#8
  | .ret => -2#8
  | .jumpNonZero | .store => -3#8

/-- R100: a list of nibbles as a number, the first nibble the least significant. -/
def Safety.valueOf : List Nibble → Nat
  | [] => 0
  | d :: ds => d.toNat + 16 * Safety.valueOf ds

/-- R100: the cells `t, t-1, ..., t-m+1` as a list, an unwritten cell standing as `none`. -/
def Safety.cellsDown (m : Memory) : Nat → Addr → List (Option Nibble)
  | 0, _ => []
  | n + 1, t => Memory.find m t :: Safety.cellsDown m n (t - 1#8)

/-- R100: the operands a ripple reads, step after step, by the open-bus rule at the moment of each step. -/
def Safety.rippleOperands : Nat → Addr → Nibble → State → List Nibble
  | 0, _, _, _ => []
  | n + 1, a, carry, s =>
    let r := rippleStep a carry s
    busValue s a :: (if r.1 = 0#4 then [] else Safety.rippleOperands n (a - 1#8) r.1 r.2)

/-- An address of R42's table, without the value that moved. -/
def Safety.place : Access → Bool × Addr
  | .read a _ => (false, a)
  | .write a _ => (true, a)

/-- R42, R96: the accesses of `n` ripple steps from address `a` downward, each a read and then a write. -/
def Safety.ripplePlaces : Nat → Addr → List (Bool × Addr)
  | 0, _ => []
  | n + 1, a => (false, a) :: (true, a) :: Safety.ripplePlaces n (a - 1#8)

/-- R31: what the first pop from a state returns. -/
def Safety.pop1 (s : State) : Nibble := busValue s s.sp

/-- R31: what the second pop in a row returns; an unwritten cell gives what the first returned, by then the latch. -/
def Safety.pop2 (s : State) : Nibble := (Memory.find s.mem (s.sp - 1#8)).getD (Safety.pop1 s)

/-- R31: what the third pop in a row returns. -/
def Safety.pop3 (s : State) : Nibble := (Memory.find s.mem (s.sp - 2#8)).getD (Safety.pop2 s)

/-- R97, R99: what a ripple leaves of memory `m` and in the latch, `o` being the operand read at its first address `a`
and `c` its initial carry. Either the first step does not carry; or it does, and the carry runs through `k` cells
holding 15 to a cell that does not; or every other cell of the ring holds 15 and the carry comes back to `a`. -/
def Safety.Rippled (a : Addr) (o c : Nibble) (m m' : Memory) (latch' : Nibble) : Prop :=
  (o.toNat + c.toNat < 16 →
    latch' = o + c ∧ ∀ b : Addr, Memory.find m' b = if b = a then some (o + c) else Memory.find m b) ∧
  (16 ≤ o.toNat + c.toNat → ∀ k : Nat, k < 255 →
    (∀ j : Nat, j < k → Memory.find m (a - BitVec.ofNat 8 (j + 1)) = some 15#4) →
    Memory.find m (a - BitVec.ofNat 8 (k + 1)) ≠ some 15#4 →
    latch' = (Memory.find m (a - BitVec.ofNat 8 (k + 1))).getD (if k = 0 then o + c else 0#4) + 1#4 ∧
    ∀ b : Addr, Memory.find m' b =
      if b = a then some (o + c)
      else if b = a - BitVec.ofNat 8 (k + 1) then some latch'
      else if (a - b).toNat ≤ k then some 0#4
      else Memory.find m b) ∧
  (16 ≤ o.toNat + c.toNat → (∀ b : Addr, b ≠ a → Memory.find m b = some 15#4) →
    latch' = o + c + 1#4 ∧
    ∀ b : Addr, Memory.find m' b = if b = a then some (o + c + 1#4) else some 0#4)

/-- R87, R88, R90, R42: in every running state whose fetched opcode is `i`'s, one cycle is `i` executed with its opcode
in the latch, and its accesses are the fetch and then those `rest` says of that state. -/
def Safety.RunsInOneCycle (i : Instr) (rest : State → List Access) : Prop :=
  ∀ s : State, s.run = .running → fetchedOpcode s = opcodeOf i →
    ∃ t : State, exec i (s.setLatch (opcodeOf i)) = .next t ∧ step s = .next t ∧
      cycleAccesses s = some (.read s.ip (opcodeOf i) :: rest (s.setLatch (opcodeOf i)), t)

/-- The nibble an access moved. -/
def Safety.moved : Access → Nibble
  | .read _ v => v
  | .write _ v => v

/-- R57, R64, R67, R70: the instructions a node without labels stands for: none for a comment, one Push for each nibble of
a pushed literal, and those a filler's nibbles decode to where they are whole instructions. `none` for a label
definition, a label reference, or a filler that ends inside a Push. -/
def Safety.nodeInstrs : Node → Option (List Instr)
  | .labelDef _ => none
  | .comment _ => some []
  | .filler (.literal ns) => (disassemble ns).toOption
  | .push (.literal ns) => some (ns.map Instr.push)
  | .filler (.label _) | .push (.label _) => none
  | .nop => some [.nop]
  | .pop => some [.pop]
  | .add => some [.add]
  | .subtract => some [.subtract]
  | .jumpNonZero => some [.jumpNonZero]
  | .call => some [.call]
  | .ret => some [.ret]
  | .load => some [.load]
  | .store => some [.store]
  | .halt => some [.halt]

/-- R57: the instructions of a program without labels, in order. -/
def Safety.programInstrs : List Node → Option (List Instr)
  | [] => some []
  | n :: ns =>
    match Safety.nodeInstrs n, Safety.programInstrs ns with
    | some is, some js => some (is ++ js)
    | some _, none => none
    | none, _ => none

/-- R126: a character a dump may hold: a hex digit or a space. -/
def Safety.isDumpCharacter (c : Char) : Bool := isDumpSpace c || (hexNibble c).isSome

/-- R64: the length of a program in nibbles, known before any label is resolved. -/
def Safety.sizeOf : List Node → Nat
  | [] => 0
  | n :: ns => n.size + Safety.sizeOf ns

end Sys2Proof
end

