-- ==== Sys2Proof/Certificates/Slice0/Obligations.lean ====
section
/-! DEFINITION. The statements for the provers, each from the rules of spec/ its docstring names. -/

open Sys2Proof Sys2Proof.Machine

/-! Encoding (spec/30_encoding.md). -/

/-- R50, R55: which instruction each opcode nibble selects, and its length. The numbers other than 1 and 15 are the
spec's decision D1 (log 1). -/
def Obligations.OpcodeMapAndLengths : Prop :=
  (∀ imm : Nibble,
    decodeOpcode 0x0#4 imm = .nop ∧ decodeOpcode 0x1#4 imm = .push imm ∧ decodeOpcode 0x2#4 imm = .pop ∧
    decodeOpcode 0x3#4 imm = .add ∧ decodeOpcode 0x4#4 imm = .subtract ∧ decodeOpcode 0x5#4 imm = .jumpNonZero ∧
    decodeOpcode 0x6#4 imm = .call ∧ decodeOpcode 0x7#4 imm = .ret ∧ decodeOpcode 0x8#4 imm = .load ∧
    decodeOpcode 0x9#4 imm = .store ∧ decodeOpcode 0xA#4 imm = .illegalA ∧ decodeOpcode 0xB#4 imm = .illegalB ∧
    decodeOpcode 0xC#4 imm = .illegalC ∧ decodeOpcode 0xD#4 imm = .illegalD ∧ decodeOpcode 0xE#4 imm = .illegalE ∧
    decodeOpcode 0xF#4 imm = .halt) ∧
  (∀ op : Nibble, opcodeLength op = if op = 0x1#4 then 2 else 1)

/-- R49, R50, R56: a few sequences of nibbles written out from the encoding decode to what they stand for, as memory
holds them and as opcode_table.json numbers them. The opcode numbers are the spec's decision D1 (log 1), the layout of a
table word log 15. -/
def Obligations.WrittenWordsDecode : Prop :=
  decode [0x1#4, 0x5#4, 0x1#4, 0x3#4, 0x3#4] = .ok (.push 5#4, [0x1#4, 0x3#4, 0x3#4]) ∧
  decode [0x3#4] = .ok (.add, []) ∧ decode [0x5#4, 0xF#4] = .ok (.jumpNonZero, [0xF#4]) ∧
  decode [0x9#4] = .ok (.store, []) ∧ decode [0xA#4] = .ok (.illegalA, []) ∧ decode [0xF#4] = .ok (.halt, []) ∧
  decodeTableWord 8 0x1C = some (.push 0xC#4) ∧ decodeTableWord 8 0x7 = some .ret

/-- Decoding the encoding of any well-formed instruction, whatever follows it, gives that instruction back. -/
def Obligations.DecodeOfEncode : Prop :=
  ∀ (i : Instr) (rest : List Nibble), i.wellFormed = true → decode (encode i ++ rest) = .ok (i, rest)

/-- Each sequence of nibbles has one meaning: what decodes to an instruction begins with that instruction's encoding. -/
def Obligations.EncodeOfDecode : Prop :=
  ∀ (ns rest : List Nibble) (i : Instr), decode ns = .ok (i, rest) → ns = encode i ++ rest

/-- Decoding a finite sequence fails exactly where the nibbles run out, before an opcode or after a Push opcode. R55 knows
no such end, since memory is a ring: the failure is the model's choice (log 27). -/
def Obligations.DecodeRejectsOnlyCutSequences : Prop :=
  ∀ (ns : List Nibble) (e : DecodeError),
    decode ns = .error e ↔ (ns = [] ∧ e = .noOpcode) ∨ (ns = [0x1#4] ∧ e = .noImmediate)

/-- R57: disassembling a program's image gives the program back; and a program without labels assembles, with no warning,
to the image of the instructions its nodes stand for: comments stand for none, a pushed literal for one Push a nibble,
and a filler, where it is whole instructions, for those its nibbles decode to (the spec's derived sentence in R57 speaks
of fillers only where they decode as they stand). Two points are the model's choices: past 256 nibbles the program is
assembled all the same (log 25), and an image that goes on with a lone Push opcode is rejected whole (log 27). -/
def Obligations.DisassemblyRecoversProgram : Prop :=
  (∀ is : List Instr, disassemble (encodeProgram is) = .ok is) ∧
  (∀ (nodes : List Node) (is : List Instr), Safety.programInstrs nodes = some is →
    assemble nodes = .ok (encodeProgram is, []) ∧ disassemble (encodeProgram is) = .ok is) ∧
  (∀ is : List Instr, disassemble (encodeProgram is ++ [opcodeOf (.push 0#4)]) = .error .noImmediate)

/-! The assembler (spec/30_encoding.md part 6). -/

/-- R61, R67, R68, R69: the single-character tokens and their instructions; no token is Subtract; an unknown token and an
unterminated comment give no nodes; the source's example and the spec's vector assemble to the images written for them.
The opcode numbers in the images are the spec's decision D1 (log 1). -/
def Obligations.SourceTokens : Prop :=
  parseText "? > + j c r l s !".toList = .ok [.nop, .pop, .add, .jumpNonZero, .call, .ret, .load, .store, .halt] ∧
  (∀ w : List Char, parseWord w ≠ .ok .subtract) ∧
  parseText "? -".toList = .error (.unrecognizedToken "-") ∧ parseText "? ( !".toList = .error .unterminatedComment ∧
  assembleText "<x5 <x3 +".toList = .ok ([0x1#4, 0x5#4, 0x1#4, 0x3#4, 0x3#4], []) ∧
  assembleText "? <x5 > + j c r l s !".toList =
    .ok ([0x0#4, 0x1#4, 0x5#4, 0x2#4, 0x3#4, 0x5#4, 0x6#4, 0x7#4, 0x8#4, 0x9#4, 0xF#4], [])

/-- R64: an assembled image is as long as its nodes' lengths, which are known before labels are resolved. That a program
past 256 nibbles has an image of its full length is the model's choice (log 25). -/
def Obligations.AssembledLengthIsNodeLengths : Prop :=
  ∀ (nodes : List Node) (image : List Nibble) (warnings : List String),
    assemble nodes = .ok (image, warnings) → image.length = Safety.sizeOf nodes

/-- R65, R66: a label stands for the number of nibbles before its definition, wherever it is referred to, and a
reference becomes that address's high nibble and then its low nibble. A reference to an offset past 255 is refused, by
the model's choice (log 19). -/
def Obligations.LabelIsOffsetOfItsDefinition : Prop :=
  ∀ (before after : List Node) (name : String),
    (∀ n ∈ before, n ≠ .labelDef name) →
    (Safety.sizeOf before < memCells →
      ∃ a : Addr, a.toNat = Safety.sizeOf before ∧
        (Datum.label name).resolve (labelTable 0 (before ++ .labelDef name :: after)) = .ok ([hi a, lo a], [])) ∧
    (memCells ≤ Safety.sizeOf before →
      (Datum.label name).resolve (labelTable 0 (before ++ .labelDef name :: after)) = .error (.offsetBeyondMemory name))

/-! The memory dump (spec/70_reset_and_hazards.md R126, R127). -/

/-- R126, R127: a dump of at most 256 hex digits and spaces, whatever spaces follow, gives its digits in order; of a dump
whose first 256 characters are hex digits only those are consulted; and the first bad character among the first 256
characters fails the load with its position. A lower-case digit is bad, as 93_implementation_defined.md U11 asks (log
19); positions count from 0, spaces too, by the model's choice (log 26). -/
def Obligations.DumpLoadsItsDigits : Prop :=
  (∀ text spaces : List Char, text.length ≤ 256 → (∀ c ∈ text, Safety.isDumpCharacter c = true) →
    (∀ c ∈ spaces, isDumpSpace c = true) → loadDump (text ++ spaces) = .ok (text.filterMap hexNibble)) ∧
  (∀ digits rest : List Char, digits.length = 256 → (∀ c ∈ digits, (hexNibble c).isSome = true) →
    loadDump (digits ++ rest) = .ok (digits.filterMap hexNibble)) ∧
  (∀ (good rest : List Char) (bad : Char), good.length < 256 → (∀ c ∈ good, Safety.isDumpCharacter c = true) →
    Safety.isDumpCharacter bad = false → loadDump (good ++ bad :: rest) = .error (.badCharacter good.length))

/-! Addresses, bus and stack (spec/00_scope.md, spec/20_memory.md). -/

/-- R6: the address helpers. -/
def Obligations.AddressHelpers : Prop :=
  (∀ a : Addr, (hi a).toNat = a.toNat / 16 ∧ (lo a).toNat = a.toNat % 16 ∧ combine (hi a) (lo a) = a) ∧
  (∀ h l : Nibble, (combine h l).toNat = 16 * h.toNat + l.toNat) ∧
  (∀ (a : Addr) (k : Int),
    ((a + BitVec.ofInt 8 k).toNat : Int) = ((a.toNat : Int) + k) % 256 ∧
    ((a - BitVec.ofInt 8 k).toNat : Int) = ((a.toNat : Int) - k) % 256)

/-- R27: a read of a written cell returns its value and sets the latch to it; a read of an unwritten cell returns the
latch and changes nothing. -/
def Obligations.OpenBusRead : Prop :=
  ∀ (a : Addr) (s : State),
    (∀ v : Nibble, Memory.find s.mem a = some v → memRead a s = (v, { s with latch := v })) ∧
    (Memory.find s.mem a = none → memRead a s = (s.latch, s))

/-- R28, and R118 for a host write (log 17): a write makes that cell written with that value, sets the latch, and
changes nothing else. -/
def Obligations.BusWrite : Prop :=
  ∀ (a : Addr) (v : Nibble) (s : State),
    (memWrite a v s).ip = s.ip ∧ (memWrite a v s).sp = s.sp ∧ (memWrite a v s).run = s.run ∧
    (memWrite a v s).latch = v ∧
    (∀ b : Addr, Memory.find (memWrite a v s).mem b = if b = a then some v else Memory.find s.mem b) ∧
    hostWrite a v s = memWrite a v s

/-- R30, R31, R32: push increments and then writes; pop reads and then decrements; a popped address takes its low
nibble first; an address pushed and then popped is the same address, `sp` back where it was. -/
def Obligations.StackPrimitives : Prop :=
  (∀ (v : Nibble) (s : State), pushNibble v s = memWrite (s.sp + 1#8) v { s with sp := s.sp + 1#8 }) ∧
  (∀ s : State, popNibble s = (Safety.pop1 s, { s with latch := Safety.pop1 s, sp := s.sp - 1#8 })) ∧
  (∀ s : State, popAddr s =
    (combine (Safety.pop2 s) (Safety.pop1 s), { s with latch := Safety.pop2 s, sp := s.sp - 2#8 })) ∧
  (∀ (a : Addr) (s : State), (popAddr (pushAddr a s)).1 = a ∧ (popAddr (pushAddr a s)).2.sp = s.sp)

/-- R38, R27, R28: the array's outputs are its cell, `rvalid` telling a written one and `rdata` its nibble; the ports of
the array and the latch that captures from them do what the two bus operations do; a read and a write asked together are
no request. The port list is the spec's decision D21 (log 18); that the outputs during a write show the cell before it is
the model's choice (log 28). -/
def Obligations.ArrayPortsAgreeWithBus : Prop :=
  (∀ (m : Memory) (p : ArrayIn),
    ((arrayOut m p).rvalid = true ↔ ∃ v : Nibble, Memory.find m p.addr = some v) ∧
    ((arrayOut m p).rvalid = false ↔ isOpen m p.addr = true) ∧
    ∀ v : Nibble, (arrayOut m p).rdata = some v ↔ Memory.find m p.addr = some v) ∧
  (∀ (s : State) (a : Addr) (w : Nibble),
    let p : ArrayIn := { addr := a, we := false, re := true, wdata := w }
    arrayServe s.mem p = some (arrayOut s.mem p, s.mem) ∧
    memRead a s = (latchCapture s.latch p (arrayOut s.mem p), { s with latch := latchCapture s.latch p (arrayOut s.mem p) })) ∧
  (∀ (s : State) (a : Addr) (v : Nibble),
    let p : ArrayIn := { addr := a, we := true, re := false, wdata := v }
    arrayServe s.mem p = some (arrayOut s.mem p, (memWrite a v s).mem) ∧
    (memWrite a v s).latch = latchCapture s.latch p (arrayOut s.mem p)) ∧
  (∀ (m : Memory) (p : ArrayIn), p.we = true → p.re = true → arrayServe m p = none)

/-! The ALU (spec/40_alu.md). -/

/-- R73: the sum modulo 16 and the carry, 0 or 1, of two nibbles; it does not matter which is which. -/
def Obligations.AddWithCarry : Prop :=
  ∀ a b : Nibble,
    (addC a b).1.toNat = (a.toNat + b.toNat) % 16 ∧ (addC a b).2.toNat = (a.toNat + b.toNat) / 16 ∧
    addC a b = addC b a ∧ ((addC a b).2 = 1#4 ↔ 16 ≤ a.toNat + b.toNat) ∧
    ((addC a b).2 = 1#4 → (addC a b).1.toNat ≤ 14)

/-- R74: addition modulo 16, the carry discarded. -/
def Obligations.AluAddWraps : Prop :=
  ∀ a b : Nibble, ∃ r : Nibble, alu .add a b = some r ∧ r.toNat = (a.toNat + b.toNat) % 16 ∧ r = (addC a b).1

/-- R75 to R80: difference, product, quotient, remainder and shifts as the spec's decisions D12 and D13 read them; a
zero divisor gives no value (log 10). -/
def Obligations.AluArithmetic : Prop :=
  ∀ a b : Nibble,
    (∃ r, alu .sub a b = some r ∧ (r.toNat : Int) = ((a.toNat : Int) - b.toNat) % 16) ∧
    (∃ r, alu .mul a b = some r ∧ r.toNat = (a.toNat * b.toNat) % 16) ∧
    (b ≠ 0#4 → ∃ q r, alu .div a b = some q ∧ alu .rem a b = some r ∧
      q.toNat * b.toNat + r.toNat = a.toNat ∧ r.toNat < b.toNat) ∧
    (b = 0#4 → alu .div a b = none ∧ alu .rem a b = none) ∧
    (∃ r, alu .shl a b = some r ∧ r.toNat = (a.toNat * 2 ^ b.toNat) % 16) ∧
    (∃ r, alu .shr a b = some r ∧ r.toNat = a.toNat / 2 ^ b.toNat)

/-- R81, R82, R83: the bitwise operators, bit by bit. -/
def Obligations.AluBitwise : Prop :=
  ∀ a b : Nibble,
    (∃ r, alu .and a b = some r ∧ ∀ i < 4, r.getLsbD i = (a.getLsbD i && b.getLsbD i)) ∧
    (∃ r, alu .or a b = some r ∧ ∀ i < 4, r.getLsbD i = (a.getLsbD i || b.getLsbD i)) ∧
    (∃ r, alu .xor a b = some r ∧ ∀ i < 4, r.getLsbD i = (a.getLsbD i != b.getLsbD i))

/-- R84: negation as Subtract uses it. Difference modulo 16 is the spec's decision D12 (log 10). -/
def Obligations.NegationIsAdditiveInverse : Prop :=
  ∀ n : Nibble,
    (negate n).toNat = (16 - n.toNat) % 16 ∧ alu .add n (negate n) = some 0#4 ∧
    (n ≠ 0#4 → addC n (negate n) = (0#4, 1#4)) ∧ (n = 0#4 → addC n (negate n) = (0#4, 0#4))

/-! The cycle (spec/41_cycle_nop_halt.md). -/

/-- R87, R88, R90, R51: when the nibbles at `ip` and after it, as bus reads return them, decode to a well-formed
instruction, one step of a running instance is that instruction executed with the last nibble of its fetch in the
latch; `step` adds nothing else around `exec`. That both nibbles are ordinary reads is the spec's decisions D7 and D8
(log 6). -/
def Obligations.StepRunsDecodedInstruction : Prop :=
  ∀ (s : State) (i : Instr) (rest : List Nibble),
    s.run = .running →
    decode [busValue s s.ip, (Memory.find s.mem (s.ip + 1#8)).getD (busValue s s.ip)] = .ok (i, rest) →
    i.wellFormed = true →
    step s = exec i (s.setLatch (if opcodeLength (opcodeOf i) = 2
      then (Memory.find s.mem (s.ip + 1#8)).getD (busValue s s.ip) else busValue s s.ip))

/-- R87, R121, R136: a halted instance's cycle does nothing, any number of times; and host writes and cycles leave it
halted with the same `ip` and `sp`. -/
def Obligations.HaltedUntilReset : Prop :=
  (∀ (s : State) (n : Nat), s.run = .halted → core.run n s = .next s) ∧
  (∀ (cfg : Config) (ops : List HostOp) (s : State),
    s.run = .halted → (∀ op ∈ ops, ∀ image, op ≠ .reset image) →
    ∃ t, hostRun cfg ops s = some t ∧ t.run = .halted ∧ t.ip = s.ip ∧ t.sp = s.sp)

/-- R16, R108, R135: only Halt and the illegal opcodes end a run. Which opcode a cycle meets is read as the spec's
decision D7 says (log 6). -/
def Obligations.OnlyHaltAndIllegalOpcodesStop : Prop :=
  ∀ s t : State, step s = .next t →
    (t.run = .halted ↔ s.run = .halted ∨ (fetch s).1 = .halt ∨ Safety.isIllegal (fetch s).1 = true)

/-! The instructions: result and frame for every state after the fetch, and the cycle with its accesses. That the fetch
is an ordinary read is the spec's decisions D7 and D8 (log 6). -/

/-- R91, Nop: `ip` advances and nothing else changes; the fetch is the only access. That the fetch is a bus read and
sets the latch is the spec's decision D7 (log 6). -/
def Obligations.NopAdvances : Prop :=
  (∀ s : State, exec .nop s = .next { s with ip := s.ip + 1#8 }) ∧
  Safety.RunsInOneCycle .nop (fun _ => [])

/-- R92, Halt: the run state becomes halted and nothing else changes; that `ip` stays is the spec's decision D11 (log
9). That the fetch is a bus read and sets the latch is the spec's decision D7 (log 6). -/
def Obligations.HaltStops : Prop :=
  (∀ s : State, exec .halt s = .next { s with run := .halted }) ∧
  Safety.RunsInOneCycle .halt (fun _ => [])

/-- R93, R108, R112, the five illegal opcodes: the run state becomes halted and nothing else changes, so after the cycle
the latch is the opcode (90_conflicts.md C7, log 9). That the fetch is a bus read and sets the latch is the spec's
decision D7 (log 6). -/
def Obligations.IllegalOpcodesHaltSilently : Prop :=
  ∀ i : Instr, Safety.isIllegal i = true →
    (∀ s : State, exec i s = .next { s with run := .halted }) ∧ Safety.RunsInOneCycle i (fun _ => [])

/-- R94, Push: `ip` moves two, `sp` one up, the immediate is written at the new top and is in the latch; the immediate
of a running instance is the nibble after the opcode, or the opcode where that cell is unwritten (D8, log 6). -/
def Obligations.PushWritesImmediate : Prop :=
  (∀ (imm : Nibble) (s : State), ∃ t, exec (.push imm) s = .next t ∧
    t.ip = s.ip + 2#8 ∧ t.sp = s.sp + 1#8 ∧ t.latch = imm ∧ t.run = s.run ∧
    ∀ b : Addr, Memory.find t.mem b = if b = s.sp + 1#8 then some imm else Memory.find s.mem b) ∧
  (∀ s : State, s.run = .running → fetchedOpcode s = 1#4 →
    let imm := (Memory.find s.mem (s.ip + 1#8)).getD 1#4
    ∃ t, step s = .next t ∧ exec (.push imm) s = .next t ∧
      cycleAccesses s = some ([.read s.ip 1#4, .read (s.ip + 1#8) imm, .write (s.sp + 1#8) imm], t))

/-- R95, Pop: `ip` advances, `sp` goes one down, the nibble read is in the latch, memory is unchanged. That the fetch is
a bus read and sets the latch is the spec's decision D7 (log 6). -/
def Obligations.PopDiscardsTop : Prop :=
  (∀ s : State, exec .pop s =
    .next { s with ip := s.ip + 1#8, sp := s.sp - 1#8, latch := Safety.pop1 s }) ∧
  Safety.RunsInOneCycle .pop (fun s => [.read s.sp (Safety.pop1 s)])

/-- R97, R96, R99, Add: the addend is popped and rippled down from the new top; `ip` advances, `sp` is one down; no
cell changes but those the carry reaches. At least one step is the spec's decision D9, the private ripple address D18
(log 7). -/
def Obligations.AddRipplesAddend : Prop :=
  ∀ s : State, ∃ t, exec .add s = .next t ∧ t.ip = s.ip + 1#8 ∧ t.sp = s.sp - 1#8 ∧ t.run = s.run ∧
    Safety.Rippled (s.sp - 1#8) (Safety.pop2 s) (Safety.pop1 s) s.mem t.mem t.latch

/-- R98, Subtract: the subtrahend's negation is rippled as Add ripples its addend, so the top nibble becomes the
difference modulo 16 and the carry goes on exactly when no borrow is needed. Advancing `ip` is the spec's decision D10
(log 8). At least one step is its decision D9, the private ripple address D18 (log 7). -/
def Obligations.SubtractRipplesNegation : Prop :=
  ∀ s : State, ∃ t, exec .subtract s = .next t ∧ t.ip = s.ip + 1#8 ∧ t.sp = s.sp - 1#8 ∧ t.run = s.run ∧
    Safety.Rippled (s.sp - 1#8) (Safety.pop2 s) (0#4 - Safety.pop1 s) s.mem t.mem t.latch ∧
    Safety.pop2 s + (0#4 - Safety.pop1 s) = Safety.pop2 s - Safety.pop1 s ∧
    (Safety.pop1 s ≠ 0#4 →
      (16 ≤ (Safety.pop2 s).toNat + (0#4 - Safety.pop1 s).toNat ↔ (Safety.pop1 s).toNat ≤ (Safety.pop2 s).toNat))

/-- R101, JumpNonZero: three nibbles are popped whether or not the jump is taken; it is taken unless the third is 0.
That the fetch is a bus read and sets the latch is the spec's decision D7 (log 6). -/
def Obligations.JumpNonZeroTestsThirdNibble : Prop :=
  (∀ s : State, exec .jumpNonZero s =
    .next { s with
      ip := if Safety.pop3 s = 0#4 then s.ip + 1#8 else combine (Safety.pop2 s) (Safety.pop1 s)
      sp := s.sp - 3#8
      latch := Safety.pop3 s }) ∧
  Safety.RunsInOneCycle .jumpNonZero (fun s =>
    [.read s.sp (Safety.pop1 s), .read (s.sp - 1#8) (Safety.pop2 s), .read (s.sp - 2#8) (Safety.pop3 s)])

/-- R102, Call: the two cells that held the target hold the address after the Call, `sp` is where it was, the latch
holds the low nibble of that address. That the address wraps from 255 to 0 is the spec's decision D26 (log 11). That the
fetch is a bus read and sets the latch is the spec's decision D7 (log 6). -/
def Obligations.CallSwapsTargetForReturnAddress : Prop :=
  (∀ s : State, ∃ t, exec .call s = .next t ∧
    t.ip = combine (Safety.pop2 s) (Safety.pop1 s) ∧ t.sp = s.sp ∧ t.latch = lo (s.ip + 1#8) ∧ t.run = s.run ∧
    ∀ b : Addr, Memory.find t.mem b =
      if b = s.sp then some (lo (s.ip + 1#8)) else if b = s.sp - 1#8 then some (hi (s.ip + 1#8)) else Memory.find s.mem b) ∧
  Safety.RunsInOneCycle .call (fun s =>
    [.read s.sp (Safety.pop1 s), .read (s.sp - 1#8) (Safety.pop2 s),
     .write (s.sp - 1#8) (hi (s.ip + 1#8)), .write s.sp (lo (s.ip + 1#8))])

/-- R103, Return: the address popped becomes `ip` as it is; `sp` goes two down; memory is unchanged. That the fetch is a
bus read and sets the latch is the spec's decision D7 (log 6). -/
def Obligations.ReturnJumpsToPoppedAddress : Prop :=
  (∀ s : State, exec .ret s =
    .next { s with
      ip := combine (Safety.pop2 s) (Safety.pop1 s), sp := s.sp - 2#8, latch := Safety.pop2 s }) ∧
  Safety.RunsInOneCycle .ret (fun s => [.read s.sp (Safety.pop1 s), .read (s.sp - 1#8) (Safety.pop2 s)])

/-- R105, Load: the nibble at the popped address, or the high address nibble where that cell is unwritten, replaces the
two address nibbles on the stack. That the fetch is a bus read and sets the latch is the spec's decision D7 (log 6). -/
def Obligations.LoadPushesNibble : Prop :=
  (∀ s : State, loadAddress s = combine (Safety.pop2 s) (Safety.pop1 s)) ∧
  (∀ s : State,
    let v := (Memory.find s.mem (loadAddress s)).getD (Safety.pop2 s)
    ∃ t, exec .load s = .next t ∧ t.ip = s.ip + 1#8 ∧ t.sp = s.sp - 1#8 ∧ t.latch = v ∧ t.run = s.run ∧
      ∀ b : Addr, Memory.find t.mem b = if b = s.sp - 1#8 then some v else Memory.find s.mem b) ∧
  Safety.RunsInOneCycle .load (fun s =>
    let v := (Memory.find s.mem (loadAddress s)).getD (Safety.pop2 s)
    [.read s.sp (Safety.pop1 s), .read (s.sp - 1#8) (Safety.pop2 s), .read (loadAddress s) v, .write (s.sp - 1#8) v])

/-- R106, Store: the third nibble popped is written at the address of the first two; no other cell changes. That the
fetch is a bus read and sets the latch is the spec's decision D7 (log 6). -/
def Obligations.StoreWritesNibble : Prop :=
  (∀ s : State, storeAddress s = combine (Safety.pop2 s) (Safety.pop1 s)) ∧
  (∀ s : State, ∃ t, exec .store s = .next t ∧
    t.ip = s.ip + 1#8 ∧ t.sp = s.sp - 3#8 ∧ t.latch = Safety.pop3 s ∧ t.run = s.run ∧
    ∀ b : Addr, Memory.find t.mem b = if b = storeAddress s then some (Safety.pop3 s) else Memory.find s.mem b) ∧
  Safety.RunsInOneCycle .store (fun s =>
    [.read s.sp (Safety.pop1 s), .read (s.sp - 1#8) (Safety.pop2 s), .read (s.sp - 2#8) (Safety.pop3 s),
     .write (storeAddress s) (Safety.pop3 s)])

/-- R42, R137, Add and Subtract: the fetch, the pop, and then for each of the `m` steps of the ripple, at least 1 and at
most 257, a read and a write of one cell, the cells one address after another downward from the new top. That the fetch
is a bus read is the spec's decision D7 (log 6), that there is at least one step D9, the running address D18 (log 7). -/
def Obligations.ArithmeticAccessOrder : Prop :=
  ∀ s : State, s.run = .running → fetchedOpcode s = opcodeOf .add ∨ fetchedOpcode s = opcodeOf .subtract →
    ∃ (m : Nat) (tr : List Access) (t : State), 1 ≤ m ∧ m ≤ 257 ∧ step s = .next t ∧
      cycleAccesses s = some (tr, t) ∧ tr.length = 2 + 2 * m ∧
      tr.map Safety.place = (false, s.ip) :: (false, s.sp) :: Safety.ripplePlaces m (s.sp - 1#8)

/-- R90: with nothing written on the stack or at the target, every operand is the instruction's own opcode: JumpNonZero
goes to 55, Call to 66, Return to 77, Load reads 88 and pushes 8, Store writes 9 at 99. The numbers are the spec's
decision D1 (log 1), the opcode in the latch its decision D7 (log 6). -/
def Obligations.UnwrittenOperandsAreTheOpcode : Prop :=
  ∀ s : State, s.run = .running →
    Memory.find s.mem s.sp = none → Memory.find s.mem (s.sp - 1#8) = none → Memory.find s.mem (s.sp - 2#8) = none →
    (fetchedOpcode s = 5#4 → ∃ t, step s = .next t ∧ t.ip = 0x55#8 ∧ t.latch = 5#4 ∧ t.mem = s.mem) ∧
    (fetchedOpcode s = 6#4 → ∃ t, step s = .next t ∧ t.ip = 0x66#8) ∧
    (fetchedOpcode s = 7#4 → ∃ t, step s = .next t ∧ t.ip = 0x77#8 ∧ t.latch = 7#4 ∧ t.mem = s.mem) ∧
    (fetchedOpcode s = 8#4 → Memory.find s.mem 0x88#8 = none →
      ∃ t, step s = .next t ∧ Memory.find t.mem t.sp = some 8#4 ∧ t.latch = 8#4) ∧
    (fetchedOpcode s = 9#4 → ∃ t, step s = .next t ∧ Memory.find t.mem 0x99#8 = some 9#4 ∧ t.latch = 9#4)

/-- R104, R102, R103: a Call and a Return with nothing between them come back to the address after the Call, the two
target nibbles gone from the stack. That the address after a Call at 255 is 0 is the spec's decision D26 (log 11). -/
def Obligations.CallThenReturnComesBack : Prop :=
  ∀ s : State, ∃ t u : State, exec .call s = .next t ∧ exec .ret t = .next u ∧
    u.ip = s.ip + 1#8 ∧ u.sp = s.sp - 2#8

/-- R45, R133: a cell written by any means is what the next fetch of it reads, so a Store over the next opcode takes
effect at once. That fetch is such a read is the spec's decision D7 (log 6). -/
def Obligations.WrittenCellIsFetched : Prop :=
  (∀ (a : Addr) (v : Nibble) (s : State), (memWrite a v s).ip = a → fetchedOpcode (memWrite a v s) = v) ∧
  (∀ s t : State, exec .store s = .next t → storeAddress s = t.ip → fetchedOpcode t = Safety.pop3 s)

/-! The whole machine. -/

/-- R109, R99: every cycle of every state ends in a next state; nothing faults and nothing is refused. -/
def Obligations.EveryStepAnswersNext : Prop := ∀ s : State, ∃ t, step s = .next t

/-- R99: a ripple of any carry, from any address, in any state, is over after at most 257 steps. The ripple's form is
the spec's decisions D9 and D18 (log 7). -/
def Obligations.RippleEndsWithinBound : Prop :=
  ∀ (a : Addr) (c : Nibble) (s : State), ∃ t, ripple rippleBound a c s = some t

/-- R100: a ripple of at most 256 steps adds the carry exactly: the cells it visited, read as a number with the first
the least significant, hold afterwards the number of the operands it read plus the initial carry; and where all of those
cells were written, the operands are what they held. That the ripple has at least one step and an address of its own is
the spec's decisions D9 and D18 (log 7). -/
def Obligations.RippleIsExactAddition : Prop :=
  ∀ (m : Nat) (a : Addr) (c : Nibble) (s t : State),
    m < 256 → ripple m a c s = none → ripple (m + 1) a c s = some t →
    (∃ sums : List Nibble, Safety.cellsDown t.mem (m + 1) a = sums.map some ∧
      (Safety.rippleOperands (m + 1) a c s).length = m + 1 ∧
      Safety.valueOf sums = Safety.valueOf (Safety.rippleOperands (m + 1) a c s) + c.toNat) ∧
    (∀ cells : List Nibble, Safety.cellsDown s.mem (m + 1) a = cells.map some →
      Safety.rippleOperands (m + 1) a c s = cells)

/-- The array keeps its canonical form at every step (log 12). -/
def Obligations.StepKeepsMemoryCanonical : Prop :=
  ∀ s t : State, Safety.Inv s → step s = .next t → Safety.Inv t

/-- The array after reset is in canonical form, with the empty image and with any other (log 12). -/
def Obligations.ResetMemoryIsCanonical : Prop :=
  Safety.Inv State.reset ∧ ∀ (cfg : Config) (image : List Nibble) (t : State), resetWith cfg image = some t → Safety.Inv t

/-- R20, R124: no step and no host write returns a written cell to unwritten. -/
def Obligations.WrittenCellsStayWritten : Prop :=
  (∀ s t : State, step s = .next t → Safety.keepsWritten s.mem t.mem) ∧
  (∀ (a : Addr) (v : Nibble) (s : State), Safety.keepsWritten s.mem (hostWrite a v s).mem)

/-- R13, R104: where each instruction leaves `ip`. Subtract's advance, Halt's staying and the instruction fetched are
the spec's decisions D10, D11 and D7 (log 8, 9, 6). -/
def Obligations.IpAfterEachInstruction : Prop :=
  ∀ s t : State, s.run = .running → step s = .next t →
    let u := (fetch s).2
    t.ip = match (fetch s).1 with
      | .nop | .pop | .add | .subtract | .load | .store => s.ip + 1#8
      | .push _ => s.ip + 2#8
      | .jumpNonZero => if Safety.pop3 u = 0#4 then s.ip + 1#8 else combine (Safety.pop2 u) (Safety.pop1 u)
      | .call | .ret => combine (Safety.pop2 u) (Safety.pop1 u)
      | .halt | .illegalA | .illegalB | .illegalC | .illegalD | .illegalE => s.ip

/-- R14: the net change of `sp` of each instruction, modulo 256, whatever the data. The instruction fetched is the
spec's decision D7 (log 6). -/
def Obligations.SpChangeOfEachInstruction : Prop :=
  ∀ s t : State, s.run = .running → step s = .next t → t.sp = s.sp + Safety.spChange (fetch s).1

/-- R15: after a cycle the latch holds the nibble of the cycle's last access; with no access it is unchanged. That a
fetch counts as an access that sets it is the spec's decisions D7 and D8 (log 6). -/
def Obligations.LatchIsLastNibbleMoved : Prop :=
  ∀ (s t : State) (tr : List Access), cycleAccesses s = some (tr, t) →
    t.latch = (tr.getLast?.map Safety.moved).getD s.latch

/-- R91, R125: with every cell unwritten and the latch 0, the machine executes Nop for ever, `ip` going round. That
the fetch reads the latch and 0 is Nop are the spec's decisions D7 and D1 (log 6, 1). -/
def Obligations.EmptyMemoryRunsNops : Prop :=
  ∀ (n : Nat) (s : State), s.run = .running → s.latch = 0#4 → s.mem = [] →
    core.run n s = .next { s with ip := s.ip + BitVec.ofNat 8 n }

/-! The host (spec/60_exceptions.md, spec/70_reset_and_hazards.md). -/

/-- R24, R123, R125: what reset leaves, for every image of at most 256 nibbles; a longer one is refused. That `ip` is 0,
the run state running and one reset serves all are the spec's decisions D3, D4, D5 and D6 (log 3 to 5); `sp` takes the
configured value (D2, log 2). -/
def Obligations.ResetLeavesImageAndRegisters : Prop :=
  ∀ (cfg : Config) (image : List Nibble),
    (image.length ≤ 256 → ∃ t, resetWith cfg image = some t ∧ t.ip = 0#8 ∧ t.sp = cfg.spReset ∧ t.latch = 0#4 ∧
      t.run = .running ∧ ∀ a : Addr, Memory.find t.mem a = image[a.toNat]?) ∧
    (256 < image.length → resetWith cfg image = none)

/-- R117, R109: any sequence of host operations whose images fit goes through, and keeps the array's canonical form
(log 12). The limit on images is the spec's decision D6 (log 5). -/
def Obligations.HostRunsComplete : Prop :=
  ∀ (cfg : Config) (ops : List HostOp) (s : State),
    (∀ image, HostOp.reset image ∈ ops → image.length ≤ 256) →
    ∃ t, hostRun cfg ops s = some t ∧ (Safety.Inv s → Safety.Inv t)

/-! Shared mode (spec/20_memory.md R40 to R42). The model of it is log 16. -/

/-- R24, R120, R123: a shared-mode reset gives every one of `n >= 1` instances the same registers, none with an
instruction in flight, over the image. That all reset alike is the spec's decision D15 (log 16), the values D2 to D4. -/
def Obligations.SharedResetIsUniform : Prop :=
  ∀ (cfg : Config) (n : Nat) (image : List Nibble), 1 ≤ n → image.length ≤ 256 →
    ∃ y : System, System.reset cfg n image = some y ∧ y.cpus.length = n ∧
      (∀ c ∈ y.cpus, c = { ip := 0#8, sp := cfg.spReset, latch := 0#4, run := .running, flight := .idle }) ∧
      ∀ a : Addr, y.observeCell a = image[a.toNat]?

/-- R22, R39, R41, R42: the accesses of one instance, nothing falling between them, are one cycle of the exclusive-mode
machine on that instance and the array; they are at most 516, and no other instance is touched. One access as one step
is the spec's decision D16 (log 16). -/
def Obligations.UninterruptedAccessesAreOneCycle : Prop :=
  ∀ (cfg : Config) (y : System) (k : Nat) (c : Instance),
    y.cpus[k]? = some c → c.flight = .idle →
    ∃ (tr : List Access) (t : State), step (c.view y.mem) = .next t ∧ cycleAccesses (c.view y.mem) = some (tr, t) ∧
      tr.length ≤ 516 ∧
      System.runEvents cfg (List.replicate tr.length (.access k)) y =
        some { mem := t.mem, cpus := y.cpus.set k (Instance.ofView .idle t) }

/-- R41, R35: an access of an instance changes at most the one cell it writes, to the nibble it writes and no mixture; a
read changes none. One access as one step is the spec's decision D16 (log 16). -/
def Obligations.OneAccessChangesOneCell : Prop :=
  ∀ (cfg : Config) (y y' : System) (k : Nat) (c : Instance),
    y.cpus[k]? = some c → System.apply cfg (.access k) y = some y' →
    match request c.flight (c.view y.mem) with
    | some (.write a v) => ∀ b : Addr, Memory.find y'.mem b = if b = a then some v else Memory.find y.mem b
    | some (.read _) => y'.mem = y.mem
    | none => y' = y

/-- R21, R41: an access of one instance, or a host write through it, leaves every other instance as it was, latch and
instruction in flight included. One access as one step is the spec's decision D16 (log 16). -/
def Obligations.OtherInstancesUntouched : Prop :=
  ∀ (cfg : Config) (y y' : System) (k j : Nat) (a : Addr) (v : Nibble), j ≠ k →
    System.apply cfg (.access k) y = some y' ∨ System.apply cfg (.hostWrite k a v) y = some y' →
    y'.cpus[j]? = y.cpus[j]? ∧ y'.cpus.length = y.cpus.length

/-- R20, R41: under every order of events the array keeps its canonical form, the number of instances stays, and unless
there is a reset among them no written cell becomes unwritten (log 12, log 16). -/
def Obligations.EveryInterleavingKeepsArray : Prop :=
  ∀ (cfg : Config) (es : List Event) (y y' : System), System.runEvents cfg es y = some y' →
    (Memory.wf y.mem = true → Memory.wf y'.mem = true) ∧ y'.cpus.length = y.cpus.length ∧
    ((∀ e ∈ es, ∀ image, e ≠ .reset image) → Safety.keepsWritten y.mem y'.mem)

/-- R16, R40, R113: a halted instance between its cycles asks for no access, and its turn changes nothing of the system,
cells included; and its registers stay, whatever the others do, until a reset or a host write through it. One access as
one step is the spec's decision D16 (log 16). -/
def Obligations.HaltedInstanceIsSilent : Prop :=
  ∀ (cfg : Config) (y : System) (k : Nat) (c : Instance),
    y.cpus[k]? = some c → c.run = .halted → c.flight = .idle →
    request c.flight (c.view y.mem) = none ∧ System.apply cfg (.access k) y = some y ∧
    ∀ (es : List Event) (y' : System),
      (∀ e ∈ es, (∀ image, e ≠ .reset image) ∧ ∀ a v, e ≠ .hostWrite k a v) →
      System.runEvents cfg es y = some y' → y'.cpus[k]? = some c
end

