-- ==== Sys2Proof/Laws/Memory.lean ====
section
/-! SUPPORT. The array: reading after writing, and the canonical form kept by every operation on it. -/

namespace Sys2Proof.Machine

@[simp] theorem Memory.find_nil (a : Addr) : Memory.find [] a = none := rfl

theorem nibble_of_byte (v : Nibble) : ((v.setWidth 8 : BitVec 8)).setWidth 4 = v := by
  apply BitVec.eq_of_toNat_eq
  have := v.isLt
  simp only [BitVec.toNat_setWidth]
  omega

/-- R28 then R27: a cell just written reads as the value written, whatever the list was. -/
@[simp] theorem Memory.find_put_same (m : Memory) (a : Addr) (v : Nibble) :
    Memory.find (Memory.put m a v) a = some v := by
  induction m with
  | nil => simp only [Memory.put, Memory.find, if_true, nibble_of_byte]
  | cons c rest ih =>
    obtain ⟨k, b⟩ := c
    simp only [Memory.put]
    split
    · simp only [Memory.find, ih]
      split
      · omega
      · rfl
    · split <;> rename_i h
      · simp only [Memory.find, h, if_true, nibble_of_byte]
      · simp only [Memory.find, if_true, nibble_of_byte]

/-- R28: no other cell changes. -/
theorem Memory.find_put_other (m : Memory) {a b : Addr} (v : Nibble) (h : b ≠ a) :
    Memory.find (Memory.put m a v) b = Memory.find m b := by
  have hab : a.toNat ≠ b.toNat := fun e => h (BitVec.eq_of_toNat_eq e).symm
  induction m with
  | nil => simp only [Memory.put, Memory.find, if_neg hab]
  | cons c rest ih =>
    obtain ⟨k, w⟩ := c
    simp only [Memory.put]
    split
    · simp only [Memory.find, ih]
    · split <;> rename_i hk
      · subst hk
        simp only [Memory.find, if_neg hab]
      · simp only [Memory.find, if_neg hab]

/-- What one cell reads as after a write, in one equation. -/
theorem Memory.find_put (m : Memory) (a b : Addr) (v : Nibble) :
    Memory.find (Memory.put m a v) b = if b = a then some v else Memory.find m b := by
  split <;> rename_i h
  · subst h; exact Memory.find_put_same m b v
  · exact Memory.find_put_other m v h

theorem Memory.wfFrom_mono {m : Memory} {l l' : Nat} (hl : l' ≤ l) (h : Memory.wfFrom l m = true) :
    Memory.wfFrom l' m = true := by
  cases m with
  | nil => rfl
  | cons c rest =>
    obtain ⟨k, b⟩ := c
    simp only [Memory.wfFrom, Bool.and_eq_true, decide_eq_true_eq] at h ⊢
    exact ⟨⟨⟨by omega, h.1.1.2⟩, h.1.2⟩, h.2⟩

theorem nibble_byte_lt (v : Nibble) : (v.setWidth 8 : BitVec 8).toNat < 16 := by
  have := v.isLt
  simp only [BitVec.toNat_setWidth]
  omega

theorem Memory.put_wfFrom {m : Memory} {l : Nat} {a : Addr} (v : Nibble) (hl : l ≤ a.toNat)
    (h : Memory.wfFrom l m = true) : Memory.wfFrom l (Memory.put m a v) = true := by
  have ha : a.toNat < memCells := a.isLt
  have hv := nibble_byte_lt v
  induction m generalizing l with
  | nil =>
    simp only [Memory.put, Memory.wfFrom, Bool.and_eq_true, decide_eq_true_eq, and_true]
    exact ⟨⟨hl, ha⟩, hv⟩
  | cons c rest ih =>
    obtain ⟨k, b⟩ := c
    simp only [Memory.wfFrom, Bool.and_eq_true, decide_eq_true_eq] at h
    obtain ⟨⟨⟨h1, h2⟩, h3⟩, h4⟩ := h
    simp only [Memory.put]
    split
    · simp only [Memory.wfFrom, Bool.and_eq_true, decide_eq_true_eq]
      exact ⟨⟨⟨h1, h2⟩, h3⟩, ih (by omega) h4⟩
    · split
      · simp only [Memory.wfFrom, Bool.and_eq_true, decide_eq_true_eq]
        exact ⟨⟨⟨h1, h2⟩, hv⟩, h4⟩
      · simp only [Memory.wfFrom, Bool.and_eq_true, decide_eq_true_eq]
        exact ⟨⟨⟨hl, ha⟩, hv⟩, ⟨⟨by omega, h2⟩, h3⟩, h4⟩

/-- A write keeps the canonical form. -/
theorem Memory.put_wf {m : Memory} (a : Addr) (v : Nibble) (h : Memory.wf m = true) :
    Memory.wf (Memory.put m a v) = true :=
  Memory.put_wfFrom v (Nat.zero_le _) h

theorem Memory.load_wfFrom (vs : List Nibble) (k : Nat) (h : k + vs.length ≤ memCells) :
    Memory.wfFrom k (Memory.load k vs) = true := by
  induction vs generalizing k with
  | nil => rfl
  | cons v vs ih =>
    simp only [List.length_cons] at h
    simp only [Memory.load, Memory.wfFrom, Bool.and_eq_true, decide_eq_true_eq]
    exact ⟨⟨⟨Nat.le_refl k, by omega⟩, nibble_byte_lt v⟩, ih (k + 1) (by omega)⟩

/-- Loading an image gives the canonical form. -/
theorem Memory.load_wf (vs : List Nibble) (h : vs.length ≤ memCells) : Memory.wf (Memory.load 0 vs) = true :=
  Memory.load_wfFrom vs 0 (by omega)

/-- R125: what a cell reads as in an image placed from address `k`. -/
theorem Memory.find_load (vs : List Nibble) (k : Nat) (a : Addr) :
    Memory.find (Memory.load k vs) a = if k ≤ a.toNat then vs[a.toNat - k]? else none := by
  induction vs generalizing k with
  | nil => simp [Memory.load]
  | cons v vs ih =>
    simp only [Memory.load, Memory.find, ih, nibble_of_byte]
    split <;> rename_i h
    · subst h; simp
    · split
      · rw [if_pos (by omega), show a.toNat - k = (a.toNat - (k + 1)) + 1 by omega]; simp
      · rw [if_neg (by omega)]

/-- The array after reset has the canonical form. -/
theorem Memory.reset_wf : Memory.wf State.reset.mem = true := rfl

end Sys2Proof.Machine
end

