-- ==== Sys2Proof/Laws/State.lean ====
section
/-! SUPPORT. One lemma per field per update of State, so that no proof unfolds an update. -/

namespace Sys2Proof.Machine

@[simp] theorem State.setIp_ip (s : State) (v : Addr) : (s.setIp v).ip = v := rfl
@[simp] theorem State.setIp_sp (s : State) (v : Addr) : (s.setIp v).sp = s.sp := rfl
@[simp] theorem State.setIp_latch (s : State) (v : Addr) : (s.setIp v).latch = s.latch := rfl
@[simp] theorem State.setIp_run (s : State) (v : Addr) : (s.setIp v).run = s.run := rfl
@[simp] theorem State.setIp_mem (s : State) (v : Addr) : (s.setIp v).mem = s.mem := rfl

@[simp] theorem State.setSp_ip (s : State) (v : Addr) : (s.setSp v).ip = s.ip := rfl
@[simp] theorem State.setSp_sp (s : State) (v : Addr) : (s.setSp v).sp = v := rfl
@[simp] theorem State.setSp_latch (s : State) (v : Addr) : (s.setSp v).latch = s.latch := rfl
@[simp] theorem State.setSp_run (s : State) (v : Addr) : (s.setSp v).run = s.run := rfl
@[simp] theorem State.setSp_mem (s : State) (v : Addr) : (s.setSp v).mem = s.mem := rfl

@[simp] theorem State.setLatch_ip (s : State) (v : Nibble) : (s.setLatch v).ip = s.ip := rfl
@[simp] theorem State.setLatch_sp (s : State) (v : Nibble) : (s.setLatch v).sp = s.sp := rfl
@[simp] theorem State.setLatch_latch (s : State) (v : Nibble) : (s.setLatch v).latch = v := rfl
@[simp] theorem State.setLatch_run (s : State) (v : Nibble) : (s.setLatch v).run = s.run := rfl
@[simp] theorem State.setLatch_mem (s : State) (v : Nibble) : (s.setLatch v).mem = s.mem := rfl

@[simp] theorem State.setRun_ip (s : State) (v : RunState) : (s.setRun v).ip = s.ip := rfl
@[simp] theorem State.setRun_sp (s : State) (v : RunState) : (s.setRun v).sp = s.sp := rfl
@[simp] theorem State.setRun_latch (s : State) (v : RunState) : (s.setRun v).latch = s.latch := rfl
@[simp] theorem State.setRun_run (s : State) (v : RunState) : (s.setRun v).run = v := rfl
@[simp] theorem State.setRun_mem (s : State) (v : RunState) : (s.setRun v).mem = s.mem := rfl

@[simp] theorem State.setMem_ip (s : State) (v : Memory) : (s.setMem v).ip = s.ip := rfl
@[simp] theorem State.setMem_sp (s : State) (v : Memory) : (s.setMem v).sp = s.sp := rfl
@[simp] theorem State.setMem_latch (s : State) (v : Memory) : (s.setMem v).latch = s.latch := rfl
@[simp] theorem State.setMem_run (s : State) (v : Memory) : (s.setMem v).run = s.run := rfl
@[simp] theorem State.setMem_mem (s : State) (v : Memory) : (s.setMem v).mem = v := rfl

/-- Two states with the same five fields are the same state. -/
theorem State.eq_of_fields (s t : State) (hip : s.ip = t.ip) (hsp : s.sp = t.sp) (hlatch : s.latch = t.latch)
    (hrun : s.run = t.run) (hmem : s.mem = t.mem) : s = t := by
  cases s; cases t; simp_all

@[simp] theorem State.reset_ip : State.reset.ip = 0#8 := rfl
@[simp] theorem State.reset_sp : State.reset.sp = 0#8 := rfl
@[simp] theorem State.reset_latch : State.reset.latch = 0#4 := rfl
@[simp] theorem State.reset_run : State.reset.run = .running := rfl
@[simp] theorem State.reset_mem : State.reset.mem = [] := rfl

end Sys2Proof.Machine
end

