-- ==== Sys2Proof/Laws/Ops.lean ====
section
/-! SUPPORT. For each shared operation, what it does, field by field. -/

namespace Sys2Proof.Machine

/-- R27: a read returns the open-bus value of the cell, and the state it leaves differs in the latch alone, which holds
that value. -/
theorem memRead_spec (a : Addr) (s : State) : memRead a s = (busValue s a, s.setLatch (busValue s a)) := by
  unfold memRead busValue
  cases h : Memory.find s.mem a <;> simp [State.setLatch]

@[simp] theorem memRead_value (a : Addr) (s : State) : (memRead a s).1 = busValue s a := by rw [memRead_spec]
@[simp] theorem memRead_latch (a : Addr) (s : State) : (memRead a s).2.latch = busValue s a := by rw [memRead_spec]; rfl
@[simp] theorem memRead_ip (a : Addr) (s : State) : (memRead a s).2.ip = s.ip := by rw [memRead_spec]; rfl
@[simp] theorem memRead_sp (a : Addr) (s : State) : (memRead a s).2.sp = s.sp := by rw [memRead_spec]; rfl
@[simp] theorem memRead_run (a : Addr) (s : State) : (memRead a s).2.run = s.run := by rw [memRead_spec]; rfl
@[simp] theorem memRead_mem (a : Addr) (s : State) : (memRead a s).2.mem = s.mem := by rw [memRead_spec]; rfl

theorem busValue_written {s : State} {a : Addr} {v : Nibble} (h : Memory.find s.mem a = some v) : busValue s a = v := by
  simp [busValue, h]

theorem busValue_unwritten {s : State} {a : Addr} (h : Memory.find s.mem a = none) : busValue s a = s.latch := by
  simp [busValue, h]

@[simp] theorem memWrite_ip (a : Addr) (v : Nibble) (s : State) : (memWrite a v s).ip = s.ip := rfl
@[simp] theorem memWrite_sp (a : Addr) (v : Nibble) (s : State) : (memWrite a v s).sp = s.sp := rfl
@[simp] theorem memWrite_run (a : Addr) (v : Nibble) (s : State) : (memWrite a v s).run = s.run := rfl
@[simp] theorem memWrite_latch (a : Addr) (v : Nibble) (s : State) : (memWrite a v s).latch = v := rfl
@[simp] theorem memWrite_mem (a : Addr) (v : Nibble) (s : State) : (memWrite a v s).mem = Memory.put s.mem a v := rfl

@[simp] theorem pushNibble_ip (v : Nibble) (s : State) : (pushNibble v s).ip = s.ip := rfl
@[simp] theorem pushNibble_sp (v : Nibble) (s : State) : (pushNibble v s).sp = s.sp + 1#8 := rfl
@[simp] theorem pushNibble_run (v : Nibble) (s : State) : (pushNibble v s).run = s.run := rfl
@[simp] theorem pushNibble_latch (v : Nibble) (s : State) : (pushNibble v s).latch = v := rfl
@[simp] theorem pushNibble_mem (v : Nibble) (s : State) :
    (pushNibble v s).mem = Memory.put s.mem (s.sp + 1#8) v := rfl

/-- R31: what a pop returns and leaves. -/
theorem popNibble_spec (s : State) :
    popNibble s = (busValue s s.sp, (s.setLatch (busValue s s.sp)).setSp (s.sp - 1#8)) := by
  simp [popNibble, memRead_spec]

@[simp] theorem popNibble_value (s : State) : (popNibble s).1 = busValue s s.sp := by rw [popNibble_spec]
@[simp] theorem popNibble_ip (s : State) : (popNibble s).2.ip = s.ip := by rw [popNibble_spec]; rfl
@[simp] theorem popNibble_sp (s : State) : (popNibble s).2.sp = s.sp - 1#8 := by rw [popNibble_spec]; rfl
@[simp] theorem popNibble_run (s : State) : (popNibble s).2.run = s.run := by rw [popNibble_spec]; rfl
@[simp] theorem popNibble_latch (s : State) : (popNibble s).2.latch = busValue s s.sp := by rw [popNibble_spec]; rfl
@[simp] theorem popNibble_mem (s : State) : (popNibble s).2.mem = s.mem := by rw [popNibble_spec]; rfl

@[simp] theorem advance_ip (s : State) : (advance s).ip = s.ip + 1#8 := rfl
@[simp] theorem advance_sp (s : State) : (advance s).sp = s.sp := rfl
@[simp] theorem advance_latch (s : State) : (advance s).latch = s.latch := rfl
@[simp] theorem advance_run (s : State) : (advance s).run = s.run := rfl
@[simp] theorem advance_mem (s : State) : (advance s).mem = s.mem := rfl

@[simp] theorem popAddr_ip (s : State) : (popAddr s).2.ip = s.ip := by simp [popAddr]
@[simp] theorem popAddr_run (s : State) : (popAddr s).2.run = s.run := by simp [popAddr]
@[simp] theorem popAddr_mem (s : State) : (popAddr s).2.mem = s.mem := by simp [popAddr]
@[simp] theorem popAddr_sp (s : State) : (popAddr s).2.sp = s.sp - 1#8 - 1#8 := by simp [popAddr]

@[simp] theorem pushAddr_ip (a : Addr) (s : State) : (pushAddr a s).ip = s.ip := rfl
@[simp] theorem pushAddr_run (a : Addr) (s : State) : (pushAddr a s).run = s.run := rfl
@[simp] theorem pushAddr_sp (a : Addr) (s : State) : (pushAddr a s).sp = s.sp + 1#8 + 1#8 := rfl
@[simp] theorem pushAddr_latch (a : Addr) (s : State) : (pushAddr a s).latch = lo a := rfl
@[simp] theorem pushAddr_mem (a : Addr) (s : State) :
    (pushAddr a s).mem = Memory.put (Memory.put s.mem (s.sp + 1#8) (hi a)) (s.sp + 1#8 + 1#8) (lo a) := rfl

theorem memRead_wf {a : Addr} {s : State} (h : Memory.wf s.mem = true) : Memory.wf (memRead a s).2.mem = true := by
  simpa using h

theorem memWrite_wf {a : Addr} {v : Nibble} {s : State} (h : Memory.wf s.mem = true) :
    Memory.wf (memWrite a v s).mem = true := by
  simpa using Memory.put_wf a v h

theorem pushNibble_wf {v : Nibble} {s : State} (h : Memory.wf s.mem = true) :
    Memory.wf (pushNibble v s).mem = true := by
  simpa using Memory.put_wf _ v h

theorem popNibble_wf {s : State} (h : Memory.wf s.mem = true) : Memory.wf (popNibble s).2.mem = true := by
  simpa using h

end Sys2Proof.Machine
end

