-- ==== Sys2Proof/Laws/PerInstr.lean ====
section
/-! SUPPORT. The per-instruction family `EncodedLength`: the first nibble of an encoding is the instruction's opcode, and
the encoding has the length that opcode gives (spec/30_encoding.md R48, R49, R55). -/

namespace Sys2Proof.Laws

def EncodedLength.Statement (i : Instr) : Prop :=
  (encode i).head? = some (opcodeOf i) ∧ (encode i).length = opcodeLength (opcodeOf i)

theorem EncodedLength.nop : EncodedLength.Statement .nop := ⟨rfl, rfl⟩
theorem EncodedLength.push (imm : Nibble) : EncodedLength.Statement (.push imm) := ⟨rfl, rfl⟩
theorem EncodedLength.pop : EncodedLength.Statement .pop := ⟨rfl, rfl⟩
theorem EncodedLength.add : EncodedLength.Statement .add := ⟨rfl, rfl⟩
theorem EncodedLength.subtract : EncodedLength.Statement .subtract := ⟨rfl, rfl⟩
theorem EncodedLength.jumpNonZero : EncodedLength.Statement .jumpNonZero := ⟨rfl, rfl⟩
theorem EncodedLength.call : EncodedLength.Statement .call := ⟨rfl, rfl⟩
theorem EncodedLength.ret : EncodedLength.Statement .ret := ⟨rfl, rfl⟩
theorem EncodedLength.load : EncodedLength.Statement .load := ⟨rfl, rfl⟩
theorem EncodedLength.store : EncodedLength.Statement .store := ⟨rfl, rfl⟩
theorem EncodedLength.illegalA : EncodedLength.Statement .illegalA := ⟨rfl, rfl⟩
theorem EncodedLength.illegalB : EncodedLength.Statement .illegalB := ⟨rfl, rfl⟩
theorem EncodedLength.illegalC : EncodedLength.Statement .illegalC := ⟨rfl, rfl⟩
theorem EncodedLength.illegalD : EncodedLength.Statement .illegalD := ⟨rfl, rfl⟩
theorem EncodedLength.illegalE : EncodedLength.Statement .illegalE := ⟨rfl, rfl⟩
theorem EncodedLength.halt : EncodedLength.Statement .halt := ⟨rfl, rfl⟩

end Sys2Proof.Laws
end

