-- ==== Sys2Proof/Laws/Shared.lean ====
section
/-! SUPPORT. Shared mode: what one access and its continuation can do. `runAccesses_succ` unfolds one access of a run with
an arbitrary amount of fuel; write a literal amount as a sum first, so that simp does not unfold it all. -/

namespace Sys2Proof.Machine

/-- One access of an uninterrupted run. -/
theorem runAccesses_succ (n : Nat) (f : Flight) (s : State) :
    runAccesses (n + 1) f s =
      match request f s with
      | none => some ([], s)
      | some q =>
        let p := perform q s
        let r := resume f p.2.1 p.2.2
        if r.1 = .idle then some ([p.1], r.2)
        else
          match runAccesses n r.1 r.2 with
          | some (tr, t) => some (p.1 :: tr, t)
          | none => none := rfl

/-- Going on after an access touches no cell. -/
theorem resume_mem (f : Flight) (v : Nibble) (s : State) : (resume f v s).2.mem = s.mem := by
  cases f <;> simp only [resume] <;> try (simp [spUp, spDown]; done)
  · generalize decodeOpcode v 0#4 = i
    cases i <;> simp [beginInstr, haltRun, raiseIllegalOpcode]
  · split <;> simp [spDown]

/-- Going on after an access leaves the latch. -/
theorem resume_latch (f : Flight) (v : Nibble) (s : State) : (resume f v s).2.latch = s.latch := by
  cases f <;> simp only [resume] <;> try (simp [spUp, spDown]; done)
  · generalize decodeOpcode v 0#4 = i
    cases i <;> simp [beginInstr, haltRun, raiseIllegalOpcode]
  · split <;> simp [spDown]

/-- A read as it takes place. -/
theorem perform_read (a : Addr) (s : State) :
    perform (.read a) s = (.read a (busValue s a), busValue s a, s.setLatch (busValue s a)) := by
  simp [perform, memRead_spec]

/-- A write as it takes place. -/
theorem perform_write (a : Addr) (v : Nibble) (s : State) : perform (.write a v) s = (.write a v, v, memWrite a v s) :=
  rfl

/-- An instance in the middle of an instruction always has an access to make. -/
theorem request_in_flight {f : Flight} (h : f ≠ .idle) (s : State) : request f s ≠ none := by
  cases f <;> simp [request] at *

/-- The private part and the view of an instance undo each other. -/
@[simp] theorem ofView_view (c : Instance) (m : Memory) : Instance.ofView c.flight (c.view m) = c := rfl

@[simp] theorem view_ofView (f : Flight) (s : State) : (Instance.ofView f s).view s.mem = s := rfl

end Sys2Proof.Machine
end

