-- ==== Sys2Proof/Laws/Step.lean ====
section
/-! SUPPORT. Fetch, the ripple and the step: what each can do, said once. -/

namespace Sys2Proof.Machine

/-- Fetch changes the latch alone. -/
theorem fetch_ip (s : State) : (fetch s).2.ip = s.ip := by unfold fetch; dsimp only; split <;> simp
theorem fetch_sp (s : State) : (fetch s).2.sp = s.sp := by unfold fetch; dsimp only; split <;> simp
theorem fetch_run (s : State) : (fetch s).2.run = s.run := by unfold fetch; dsimp only; split <;> simp
theorem fetch_mem (s : State) : (fetch s).2.mem = s.mem := by unfold fetch; dsimp only; split <;> simp

theorem fetchedOpcode_eq (s : State) : fetchedOpcode s = busValue s s.ip := by simp [fetchedOpcode]

/-- A halted instance's cycle does nothing. -/
theorem step_halted {s : State} (h : s.run = .halted) : step s = .next s := by unfold step; rw [h]

/-- A running instance's cycle executes what it fetches. -/
theorem step_running {s : State} (h : s.run = .running) : step s = exec (fetch s).1 (fetch s).2 := by
  unfold step; rw [h]

@[simp] theorem rippleStep_carry (a : Addr) (c : Nibble) (s : State) :
    (rippleStep a c s).1 = (addC (busValue s a) c).2 := by simp [rippleStep]
@[simp] theorem rippleStep_ip (a : Addr) (c : Nibble) (s : State) : (rippleStep a c s).2.ip = s.ip := by
  simp [rippleStep]
@[simp] theorem rippleStep_sp (a : Addr) (c : Nibble) (s : State) : (rippleStep a c s).2.sp = s.sp := by
  simp [rippleStep]
@[simp] theorem rippleStep_run (a : Addr) (c : Nibble) (s : State) : (rippleStep a c s).2.run = s.run := by
  simp [rippleStep]
@[simp] theorem rippleStep_latch (a : Addr) (c : Nibble) (s : State) :
    (rippleStep a c s).2.latch = (addC (busValue s a) c).1 := by simp [rippleStep]
@[simp] theorem rippleStep_mem (a : Addr) (c : Nibble) (s : State) :
    (rippleStep a c s).2.mem = Memory.put s.mem a (addC (busValue s a) c).1 := by simp [rippleStep]

/-- A relation that every ripple step keeps, and that composes, holds across a whole ripple. -/
theorem ripple_induct {R : State → State → Prop} (hstep : ∀ a c s, R s (rippleStep a c s).2)
    (htrans : ∀ s t u, R s t → R t u → R s u) {fuel : Nat} {a : Addr} {c : Nibble} {s t : State}
    (h : ripple fuel a c s = some t) : R s t := by
  induction fuel generalizing a c s with
  | zero => simp [ripple] at h
  | succ n ih =>
    simp only [ripple] at h
    split at h
    · obtain rfl := Option.some.inj h
      exact hstep a c s
    · exact htrans _ _ _ (hstep a c s) (ih h)

/-- R96: a ripple moves neither `ip` nor `sp` and leaves the run state. -/
theorem ripple_registers {fuel : Nat} {a : Addr} {c : Nibble} {s t : State} (h : ripple fuel a c s = some t) :
    t.ip = s.ip ∧ t.sp = s.sp ∧ t.run = s.run :=
  ripple_induct (R := fun s t => t.ip = s.ip ∧ t.sp = s.sp ∧ t.run = s.run)
    (fun _ _ _ => by simp) (fun _ _ _ h1 h2 => ⟨h2.1.trans h1.1, h2.2.1.trans h1.2.1, h2.2.2.trans h1.2.2⟩) h

/-- A ripple that is over with some fuel is over, in the same state, with more. -/
theorem ripple_more_fuel {fuel : Nat} {a : Addr} {c : Nibble} {s t : State} (h : ripple fuel a c s = some t) (k : Nat) :
    ripple (fuel + k) a c s = some t := by
  induction fuel generalizing a c s with
  | zero => simp [ripple] at h
  | succ n ih =>
    rw [Nat.succ_add]
    simp only [ripple] at h ⊢
    split at h <;> rename_i hc
    · rw [if_pos hc, h]
    · rw [if_neg hc]; exact ih h

/-- What Add and Subtract can answer, told by their ripple. -/
theorem rippleAtTop_cases (c : Nibble) (s : State) :
    (∃ t, ripple rippleBound s.sp c s = some t ∧ rippleAtTop c s = .next t) ∨
    (ripple rippleBound s.sp c s = none ∧ rippleAtTop c s = .fault .rippleOverrun) := by
  unfold rippleAtTop
  cases h : ripple rippleBound s.sp c s with
  | none => exact .inr ⟨rfl, rfl⟩
  | some t => exact .inl ⟨t, rfl, rfl⟩

/-- One more step of the host's run, when the step answers a next state. -/
theorem core_run_next {s t : State} (h : step s = .next t) (n : Nat) :
    Host.Core.run Sys2Proof.core (n + 1) s = Host.Core.run Sys2Proof.core n t := by
  have e : Sys2Proof.core.step s = .next t := h
  simp only [Host.Core.run.eq_def Sys2Proof.core (n + 1) s, e]

/-- The state after reset is reset with an empty image and the default configuration. -/
theorem reset_eq_resetWith : resetWith Config.default [] = some State.reset := rfl

end Sys2Proof.Machine
end

