-- ==== Sys2Proof/Laws/Toolchain.lean ====
section
/-! SUPPORT. The toolchain around the machine: what reading a dump and disassembling an image can do. -/

namespace Sys2Proof.Machine

/-- A space is no hex digit. -/
theorem hexNibble_of_space {c : Char} (h : isDumpSpace c = true) : hexNibble c = none := by
  simp only [isDumpSpace, decide_eq_true_eq] at h
  simp [hexNibble, h]

/-- A dump that begins with good characters gives their digits, and then what the rest gives from its place. -/
theorem dumpNibbles_append (good rest : List Char) (pos : Nat) (h : ∀ c ∈ good, Safety.isDumpCharacter c = true) :
    dumpNibbles pos (good ++ rest) =
      (dumpNibbles (pos + good.length) rest).map (good.filterMap hexNibble ++ ·) := by
  induction good generalizing pos with
  | nil => cases hd : dumpNibbles pos rest <;> simp [hd, Except.map]
  | cons c cs ih =>
    have hl : pos + (c :: cs).length = pos + 1 + cs.length := by simp only [List.length_cons]; omega
    rw [List.cons_append, dumpNibbles, ih _ fun d hd => h d (List.mem_cons_of_mem _ hd), hl]
    by_cases hs : isDumpSpace c = true
    · simp [hs, hexNibble_of_space hs]
    · have hc := h c List.mem_cons_self
      simp only [Safety.isDumpCharacter, hs, Bool.false_or] at hc
      obtain ⟨v, hv⟩ := Option.isSome_iff_exists.1 hc
      cases dumpNibbles (pos + 1 + cs.length) rest <;> simp [hs, hv, Except.map]

/-- Where spaces are not counted, a beginning no longer than the limit is consulted whole, and what is left of the limit
is at least what is left of it where they are. -/
theorem uptoNonSpaces_append (good rest : List Char) (limit : Nat) (h : good.length ≤ limit) :
    ∃ left, limit - good.length ≤ left ∧ left ≤ limit ∧
      uptoNonSpaces limit (good ++ rest) = good ++ uptoNonSpaces left rest := by
  induction good generalizing limit with
  | nil => exact ⟨limit, by simp, le_rfl, by simp⟩
  | cons c cs ih =>
    cases limit with
    | zero => simp at h
    | succ n =>
      simp only [List.length_cons, Nat.add_le_add_iff_right] at h
      by_cases hs : isDumpSpace c = true
      · obtain ⟨k, h1, h2, h3⟩ := ih (n + 1) (by omega)
        exact ⟨k, by simp only [List.length_cons]; omega, h2, by simp [uptoNonSpaces, hs, h3]⟩
      · obtain ⟨k, h1, h2, h3⟩ := ih n h
        exact ⟨k, by simp only [List.length_cons]; omega, by omega, by simp [uptoNonSpaces, hs, h3]⟩

/-- What loading a dump can do: the outcome both readings of the limit give, or a refusal where they differ. -/
theorem loadDump_cases (text : List Char) :
    (dumpNibbles 0 (text.take memCells) = dumpNibbles 0 (uptoNonSpaces memCells text) ∧
      loadDump text = dumpNibbles 0 (text.take memCells)) ∨
    (dumpNibbles 0 (text.take memCells) ≠ dumpNibbles 0 (uptoNonSpaces memCells text) ∧
      loadDump text = .error .lengthUnclear) := by
  by_cases h : dumpNibbles 0 (text.take memCells) = dumpNibbles 0 (uptoNonSpaces memCells text)
  · exact .inl ⟨h, by simp [loadDump, h]⟩
  · exact .inr ⟨h, by simp [loadDump, h]⟩

/-- An outcome of both readings is the dump's. -/
theorem loadDump_of_both {text : List Char} {r : Except DumpError (List Nibble)}
    (h1 : dumpNibbles 0 (text.take memCells) = r) (h2 : dumpNibbles 0 (uptoNonSpaces memCells text) = r) :
    loadDump text = r := by
  simp [loadDump, h1, h2]

@[simp] theorem encodeProgram_nil : encodeProgram [] = [] := rfl

@[simp] theorem encodeProgram_cons (i : Instr) (is : List Instr) :
    encodeProgram (i :: is) = encode i ++ encodeProgram is := rfl

@[simp] theorem encodeProgram_append (is js : List Instr) :
    encodeProgram (is ++ js) = encodeProgram is ++ encodeProgram js := by simp [encodeProgram]

/-- The nibbles of a push are those of one Push instruction for each (R70). -/
theorem pushNibbles_eq (ns : List Nibble) : pushNibbles ns = encodeProgram (ns.map Instr.push) := by
  induction ns with
  | nil => rfl
  | cons n ns ih => simp [pushNibbles, ih]

end Sys2Proof.Machine
end

