-- ==== Sys2Proof/Tests/Slice0.lean ====
section
/-! SUPPORT. The author's own tests. Expected values come from spec/95_test_vectors.md (the vector is named in the
docstring) or from the encoding of spec/30_encoding.md; then a witness for the hypotheses of each statement. -/

namespace Sys2Proof.Tests

open Sys2Proof Sys2Proof.Machine

/-- A running state with the given registers and written cells. -/
def mk (ip sp : Addr) (latch : Nibble) (cells : List (Addr × Nibble)) : State :=
  { ip := ip, sp := sp, latch := latch, run := .running
    mem := cells.foldl (fun m c => Memory.put m c.1 c.2) [] }

/-- The registers after one step. -/
def regs (s : State) : Option (Addr × Addr × Nibble × RunState) :=
  match step s with
  | .next t => some (t.ip, t.sp, t.latch, t.run)
  | .fault _ => none
  | .refused _ => none

/-- Some cells after one step. -/
def cells (s : State) (as : List Addr) : List (Option Nibble) :=
  match step s with
  | .next t => as.map (Memory.find t.mem)
  | .fault _ => []
  | .refused _ => []

/-- The accesses of one cycle. -/
def trace (s : State) : List Access :=
  match cycleAccesses s with
  | some r => r.1
  | none => []

/-! WellFormed smoke: each check with a term it refuses. -/

theorem test_image_257_refused : imageWellFormed (List.replicate 257 0#4) = false := by decide +kernel
theorem test_image_256_accepted : imageWellFormed (List.replicate 256 0#4) = true := by decide +kernel
theorem test_empty_literal_refused : (Node.filler (.literal [])).wellFormed = false := by decide
theorem test_instr_wellFormed : Instr.wellFormed (.push 0xF#4) = true := by decide
theorem test_memory_unsorted_refused : Memory.wf [(3, 1#8), (2, 1#8)] = false := by decide
theorem test_memory_byte_refused : Memory.wf [(3, 16#8)] = false := by decide
theorem test_memory_address_refused : Memory.wf [(256, 1#8)] = false := by decide

/-! Decoding: every constructor's word from opcode_table.json, and sequences. -/

/-- The match values of opcode_table.json, row by row. -/
theorem test_table_words :
    decodeTableWord 8 0x00 = some .nop ∧ decodeTableWord 8 0x10 = some (.push 0#4) ∧
    decodeTableWord 8 0x1A = some (.push 0xA#4) ∧ decodeTableWord 8 0x02 = some .pop ∧
    decodeTableWord 8 0x03 = some .add ∧ decodeTableWord 8 0x04 = some .subtract ∧
    decodeTableWord 8 0x05 = some .jumpNonZero ∧ decodeTableWord 8 0x06 = some .call ∧
    decodeTableWord 8 0x07 = some .ret ∧ decodeTableWord 8 0x08 = some .load ∧
    decodeTableWord 8 0x09 = some .store ∧ decodeTableWord 8 0x0A = some .illegalA ∧
    decodeTableWord 8 0x0B = some .illegalB ∧ decodeTableWord 8 0x0C = some .illegalC ∧
    decodeTableWord 8 0x0D = some .illegalD ∧ decodeTableWord 8 0x0E = some .illegalE ∧
    decodeTableWord 8 0x0F = some .halt := by decide

/-- Vector S9: `0 1 5 2 3 5 6 7 8 9 F`. -/
theorem test_disassemble_S9 :
    disassemble [0x0#4, 0x1#4, 0x5#4, 0x2#4, 0x3#4, 0x5#4, 0x6#4, 0x7#4, 0x8#4, 0x9#4, 0xF#4] =
      .ok [.nop, .push 5#4, .pop, .add, .jumpNonZero, .call, .ret, .load, .store, .halt] := by rfl

theorem test_decode_cut_push : decode [0x1#4] = .error .noImmediate := by rfl

/-- The row 1A stored where the next step fetches is run by it. -/
theorem test_withFetchWord_push :
    regs (State.reset.withFetchWord 8 0x1A) = some (0x02#8, 0x01#8, 0xA#4, .running) := by decide
theorem test_withFetchWord_illegal :
    regs (State.reset.withFetchWord 8 0x0A) = some (0x00#8, 0x00#8, 0xA#4, .halted) := by decide

/-! Single instructions (spec/95_test_vectors.md part 3). -/

/-- V-NOP-2. -/
theorem test_nop_wraps : regs (mk 0xFF#8 0#8 7#4 [(0xFF#8, 0#4)]) = some (0#8, 0#8, 0#4, .running) := by decide
/-- V-NOP-3. -/
theorem test_nop_open_bus : regs (mk 0x80#8 0#8 0#4 []) = some (0x81#8, 0#8, 0#4, .running) := by decide
/-- V-HLT-1. -/
theorem test_halt : regs (mk 4#8 2#8 0#4 [(4#8, 0xF#4)]) = some (4#8, 2#8, 0xF#4, .halted) := by decide
/-- V-HLT-1, second cycle: no access. -/
theorem test_halted_makes_no_access : trace { mk 4#8 2#8 0xF#4 [(4#8, 0xF#4)] with run := .halted } = [] := by decide
/-- V-ILL-2. -/
theorem test_illegal_E : regs (mk 7#8 3#8 2#4 [(7#8, 0xE#4)]) = some (7#8, 3#8, 0xE#4, .halted) := by decide
/-- V-ILL-3. -/
theorem test_illegal_open_bus : regs (mk 0x80#8 5#8 0xC#4 []) = some (0x80#8, 5#8, 0xC#4, .halted) := by decide
/-- V-ILL-4. -/
theorem test_illegal_B_D : regs (mk 0#8 0#8 0#4 [(0#8, 0xB#4)]) = some (0#8, 0#8, 0xB#4, .halted) ∧
    regs (mk 0#8 0#8 0#4 [(0#8, 0xD#4)]) = some (0#8, 0#8, 0xD#4, .halted) := by decide
/-- V-PUSH-4. -/
theorem test_push_straddles_wrap :
    regs (mk 0xFF#8 0x40#8 0#4 [(0xFF#8, 1#4), (0#8, 6#4)]) = some (1#8, 0x41#8, 6#4, .running) ∧
    cells (mk 0xFF#8 0x40#8 0#4 [(0xFF#8, 1#4), (0#8, 6#4)]) [0x41#8] = [some 6#4] := by decide
/-- V-PUSH-2. -/
theorem test_push_immediate_open_bus :
    trace (mk 0#8 0#8 0#4 [(0#8, 1#4)]) = [.read 0#8 1#4, .read 1#8 1#4, .write 1#8 1#4] := by decide
/-- V-POP-1. -/
theorem test_pop : regs (mk 0#8 0x10#8 0#4 [(0#8, 2#4), (0x10#8, 9#4)]) = some (1#8, 0x0F#8, 9#4, .running) := by decide
/-- V-POP-3. -/
theorem test_pop_sp_wraps : regs (mk 0#8 0#8 0#4 [(0#8, 2#4)]) = some (1#8, 0xFF#8, 2#4, .running) := by decide
/-- V-ADD-3. -/
theorem test_add_ripples :
    trace (mk 0#8 0x13#8 0#4 [(0#8, 3#4), (0x10#8, 0#4), (0x11#8, 15#4), (0x12#8, 15#4), (0x13#8, 1#4)]) =
      [.read 0#8 3#4, .read 0x13#8 1#4, .read 0x12#8 15#4, .write 0x12#8 0#4, .read 0x11#8 15#4, .write 0x11#8 0#4,
       .read 0x10#8 0#4, .write 0x10#8 1#4] := by decide
/-- V-ADD-11. -/
theorem test_add_wraps_to_unwritten :
    cells (mk 0x10#8 1#8 0#4 [(0#8, 15#4), (1#8, 1#4), (0x10#8, 3#4)]) [0#8, 1#8, 0xFF#8] =
      [some 0#4, some 1#4, some 1#4] := by decide
/-- V-SUB-1. -/
theorem test_subtract_no_borrow :
    cells (mk 0#8 0x12#8 0#4 [(0#8, 4#4), (0x10#8, 0#4), (0x11#8, 5#4), (0x12#8, 1#4)]) [0x10#8, 0x11#8, 0x12#8] =
      [some 1#4, some 4#4, some 1#4] := by decide
/-- V-SUB-5. -/
theorem test_subtract_open_bus :
    trace (mk 0#8 0x11#8 0#4 [(0#8, 4#4), (0x10#8, 9#4)]) =
      [.read 0#8 4#4, .read 0x11#8 4#4, .read 0x10#8 9#4, .write 0x10#8 5#4, .read 0x0F#8 5#4, .write 0x0F#8 6#4] := by
  decide
/-- V-JNZ-1 and V-JNZ-2. -/
theorem test_jump_taken_or_not :
    regs (mk 0#8 0x12#8 0#4 [(0#8, 5#4), (0x10#8, 1#4), (0x11#8, 2#4), (0x12#8, 0xA#4)]) =
      some (0x2A#8, 0x0F#8, 1#4, .running) ∧
    regs (mk 0#8 0x12#8 0#4 [(0#8, 5#4), (0x10#8, 0#4), (0x11#8, 2#4), (0x12#8, 0xA#4)]) =
      some (1#8, 0x0F#8, 0#4, .running) := by decide
/-- V-JNZ-5. -/
theorem test_jump_operands_straddle_wrap :
    regs (mk 5#8 0#8 0#4 [(5#8, 5#4), (0#8, 2#4), (0xFF#8, 3#4), (0xFE#8, 1#4)]) =
      some (0x32#8, 0xFD#8, 1#4, .running) := by decide
/-- V-CALL-1. -/
theorem test_call :
    trace (mk 5#8 0x21#8 0#4 [(5#8, 6#4), (0x20#8, 3#4), (0x21#8, 0xC#4)]) =
      [.read 5#8 6#4, .read 0x21#8 0xC#4, .read 0x20#8 3#4, .write 0x20#8 0#4, .write 0x21#8 6#4] ∧
    regs (mk 5#8 0x21#8 0#4 [(5#8, 6#4), (0x20#8, 3#4), (0x21#8, 0xC#4)]) = some (0x3C#8, 0x21#8, 6#4, .running) := by
  decide
/-- V-CALL-2. -/
theorem test_call_return_address_wraps :
    cells (mk 0xFF#8 0x21#8 0#4 [(0xFF#8, 6#4), (0x20#8, 3#4), (0x21#8, 0xC#4)]) [0x20#8, 0x21#8] =
      [some 0#4, some 0#4] := by decide
/-- V-RET-1. -/
theorem test_return : regs (mk 0x3C#8 0x21#8 0#4 [(0x3C#8, 7#4), (0x20#8, 0#4), (0x21#8, 6#4)]) =
    some (6#8, 0x1F#8, 0#4, .running) := by decide
/-- V-RET-2. -/
theorem test_return_open_bus : regs (mk 0#8 0x11#8 0#4 [(0#8, 7#4)]) = some (0x77#8, 0x0F#8, 7#4, .running) := by decide
/-- V-LD-1 and V-LD-2. -/
theorem test_load :
    cells (mk 0#8 0x11#8 0#4 [(0#8, 8#4), (0x10#8, 4#4), (0x11#8, 0#4), (0x40#8, 9#4)]) [0x10#8] = [some 9#4] ∧
    cells (mk 0#8 0x11#8 0#4 [(0#8, 8#4), (0x10#8, 4#4), (0x11#8, 0#4)]) [0x10#8, 0x40#8] = [some 4#4, none] := by decide
/-- V-LD-3. -/
theorem test_load_open_bus :
    trace (mk 0#8 0x11#8 0#4 [(0#8, 8#4)]) =
      [.read 0#8 8#4, .read 0x11#8 8#4, .read 0x10#8 8#4, .read 0x88#8 8#4, .write 0x10#8 8#4] := by decide
/-- V-ST-1. -/
theorem test_store :
    regs (mk 0#8 0x12#8 0#4 [(0#8, 9#4), (0x10#8, 7#4), (0x11#8, 4#4), (0x12#8, 0#4)]) =
      some (1#8, 0x0F#8, 7#4, .running) ∧
    cells (mk 0#8 0x12#8 0#4 [(0#8, 9#4), (0x10#8, 7#4), (0x11#8, 4#4), (0x12#8, 0#4)]) [0x40#8] = [some 7#4] := by decide
/-- V-ST-3. -/
theorem test_store_open_bus :
    trace (mk 0#8 1#8 0#4 [(0#8, 9#4), (0xFF#8, 0#4)]) =
      [.read 0#8 9#4, .read 1#8 9#4, .read 0#8 9#4, .read 0xFF#8 0#4, .write 0x99#8 0#4] := by decide

/-! The ALU (V-ALU-1, V-ALU-2), ports, toolchain. -/

/-- V-ALU-2, rows `13 4` and `3 5`, and S1. -/
theorem test_alu_rows :
    [AluOp.add, .sub, .mul, .div, .rem, .shl, .shr, .and, .or, .xor].map (fun op => alu op 13#4 4#4) =
      [some 1#4, some 9#4, some 4#4, some 3#4, some 1#4, some 0#4, some 0#4, some 4#4, some 13#4, some 9#4] ∧
    [AluOp.add, .sub, .mul, .div, .rem, .shl, .shr, .and, .or, .xor].map (fun op => alu op 3#4 5#4) =
      [some 8#4, some 14#4, some 15#4, some 0#4, some 3#4, some 0#4, some 0#4, some 1#4, some 7#4, some 6#4] ∧
    addC 9#4 9#4 = (2#4, 1#4) := by decide
/-- V-ALU-2, row `7 0`. -/
theorem test_alu_zero_divisor : alu .div 7#4 0#4 = none ∧ alu .rem 7#4 0#4 = none ∧ alu .shl 7#4 0#4 = some 7#4 := by
  decide
theorem test_selectors : AluOp.selector .add = 0 ∧ AluOp.selector .xor = 9 := by decide
/-- S4, the forward reference. -/
theorem test_assemble_forward :
    assemble [.push (.literal [1#4]), .push (.label "end"), .jumpNonZero, .nop, .labelDef "end", .halt] =
      .ok ([1#4, 1#4, 1#4, 0#4, 1#4, 8#4, 5#4, 0#4, 0xF#4], []) := by rfl
/-- S4, the undefined label. -/
theorem test_assemble_undefined : assemble [.push (.label "nowhere")] = .ok ([1#4, 0#4, 1#4, 0#4], ["nowhere"]) := by rfl
theorem test_assemble_duplicate : assemble [.labelDef "a", .labelDef "a"] = .error .duplicateLabel := by rfl
/-- Program P6, with a comment put in, and 93_implementation_defined.md U10. -/
theorem test_assemble_text : assembleText "<x1 <'end j ( a comment ) .xA 'end .xB".toList =
    .ok ([1#4, 1#4, 1#4, 0#4, 1#4, 8#4, 5#4, 0xA#4, 0xB#4], []) := by rfl
theorem test_parse_open : parseText "<x1f".toList = .error (.digitCase "<x1f") ∧
    parseText "( ( ) )".toList = .error .nestedComment ∧ parseText "<x".toList = .error (.malformedLiteral "<x") := by decide
/-- R126, R127. -/
theorem test_dump : loadDump ['1', '5', ' ', 'F'] = .ok [1#4, 5#4, 0xF#4] ∧ loadDump ['1', 'g'] = .error (.badCharacter 1) := by
  exact ⟨rfl, rfl⟩
/-- R126, R127: a space after 256 digits is past the limit on either reading, a bad character at 0 fails on either. -/
theorem test_dump_long : (loadDump (List.replicate 256 'F' ++ [' '])).toOption = some (List.replicate 256 15#4) ∧
    loadDump ('g' :: ' ' :: List.replicate 256 'F') = .error (.badCharacter 0) := by decide +kernel
/-- log 19: the 256th digit is consulted only if the space is not counted. -/
theorem test_dump_unclear : loadDump (' ' :: List.replicate 256 'F') = .error .lengthUnclear := by decide +kernel
theorem test_halted_bit : RunState.haltedBit .halted = 1#1 ∧ RunState.haltedBit .running = 0#1 := by decide

/-! Shared mode (spec/95_test_vectors.md part 4). -/

def cpu (ip sp : Addr) : Instance := { ip := ip, sp := sp, latch := 0#4, run := .running, flight := .idle }

/-- The system of V-SH-2: A loads through the address 40 on its stack, B pushes 7 and 3 over it. -/
def tornSystem : System where
  mem := (mk 0#8 0#8 0#4 [(0#8, 8#4), (0x10#8, 4#4), (0x11#8, 0#4), (0x40#8, 9#4), (0x70#8, 2#4), (0x73#8, 5#4),
    (0x80#8, 1#4), (0x81#8, 7#4), (0x82#8, 1#4), (0x83#8, 3#4)]).mem
  cpus := [cpu 0#8 0x11#8, cpu 0x80#8 0x0F#8]

/-- The instances that act, in order. -/
def order (ks : List Nat) : List Event := ks.map Event.access

/-- V-SH-2: the torn address, with the stack cells and the registers of A at the end. -/
theorem test_torn_address :
    (System.runEvents .default (order [0, 0, 1, 1, 1, 1, 1, 1, 0, 0, 0]) tornSystem).map
      (fun y => ([0x10#8, 0x11#8].map (Memory.find y.mem), y.observeCpu 0)) =
      some ([some 2#4, some 3#4], some (1#8, 0x10#8, 2#4, .running)) := by decide
/-- V-SH-3: a lost update; both registers 01 10 6. -/
theorem test_lost_update :
    (System.runEvents .default (order [0, 0, 1, 1, 0, 1, 0, 1])
      { mem := (mk 0#8 0#8 0#4 [(0#8, 3#4), (0x10#8, 5#4), (0x11#8, 1#4)]).mem
        cpus := [cpu 0#8 0x11#8, cpu 0#8 0x11#8] }).map
      (fun y => (Memory.find y.mem 0x10#8, y.observeCpu 0, y.observeCpu 1)) =
      some (some 6#4, some (1#8, 0x10#8, 6#4, .running), some (1#8, 0x10#8, 6#4, .running)) := by rfl

/-- V-SH-4: image `1 5 F`, two instances from reset, one order of their accesses. -/
theorem test_shared_reset_runs :
    (match System.reset .default 2 [1#4, 5#4, 0xF#4] with
      | none => none
      | some y => (System.runEvents .default (order [0, 1, 0, 1, 1, 1, 0, 0]) y).map (fun y => (y.observeCpu 0, y.over))) =
      some (some (2#8, 1#8, 0xF#4, .halted), true) := by rfl

/-! Witnesses: concrete values that meet the hypotheses of the statements. -/

def oneNop : State := mk 0#8 0#8 0#4 [(0#8, 0#4)]
/-- A state whose opcode cell holds `op`, with a written stack. -/
def at16 (op : Nibble) : State := mk 0#8 0x12#8 0#4 [(0#8, op), (0x10#8, 7#4), (0x11#8, 4#4), (0x12#8, 1#4)]
/-- An Add with addend `c` over a top cell `o`, the other cells as given. -/
def adding (o c : Nibble) (below : List (Addr × Nibble)) : State :=
  mk 0x80#8 0x12#8 0#4 ([(0x80#8, 3#4), (0x11#8, o), (0x12#8, c)] ++ below)
/-- Every cell holds 15 but one. -/
def ring (a : Addr) (v : Nibble) : Memory := Memory.put (Memory.load 0 (List.replicate 256 15#4)) a v

theorem witness_DecodeOfEncode : Instr.wellFormed (.push 5#4) = true := rfl
theorem witness_EncodeOfDecode : decode [1#4, 5#4, 2#4] = .ok (.push 5#4, [2#4]) := rfl
theorem witness_DisassemblyRecoversProgram :
    Safety.programInstrs [.comment "two", .push (.literal [5#4, 0xA#4]), .add, .filler (.literal [4#4]), .halt] =
      some [.push 5#4, .push 0xA#4, .add, .subtract, .halt] := rfl
/-- log 27: `? .x1`, its last nibble a Push opcode. -/
theorem test_disassemble_cut : disassemble [0x0#4, 0x1#4] = .error .noImmediate := rfl
theorem witness_AssembledLengthIsNodeLengths : assemble [.push (.label "x"), .labelDef "x", .halt] =
    .ok ([1#4, 0#4, 1#4, 4#4, 0xF#4], []) := rfl
/-- The first clause at offset 255. -/
theorem witness_LabelIsOffsetOfItsDefinition :
    (∀ n ∈ [Node.nop, .filler (.literal (List.replicate 254 0#4))], n ≠ .labelDef "x") ∧
    Safety.sizeOf [Node.nop, .filler (.literal (List.replicate 254 0#4))] = 255 ∧ 255 < memCells := by decide +kernel
/-- The second clause at offset 256. -/
theorem witness_LabelIsOffsetOfItsDefinition_beyond :
    (∀ n ∈ [Node.nop, .filler (.literal (List.replicate 255 0#4))], n ≠ .labelDef "x") ∧
    Safety.sizeOf [Node.nop, .filler (.literal (List.replicate 255 0#4))] = 256 ∧ memCells ≤ 256 := by decide +kernel
/-- The first clause, 256 characters and then a space. -/
theorem witness_DumpLoadsItsDigits_spaces :
    (' ' :: List.replicate 255 'F').length = 256 ∧
    (∀ c ∈ ' ' :: List.replicate 255 'F', Safety.isDumpCharacter c = true) ∧ ∀ c ∈ [' '], isDumpSpace c = true := by
  refine ⟨by rw [List.length_cons, List.length_replicate], fun c hc => ?_, fun c hc => by rw [List.mem_singleton.1 hc]; rfl⟩
  rcases List.mem_cons.1 hc with rfl | h
  · rfl
  · rw [List.eq_of_mem_replicate h]; rfl
/-- The second clause. -/
theorem witness_DumpLoadsItsDigits_full :
    (List.replicate 256 'F').length = 256 ∧ ∀ c ∈ List.replicate 256 'F', (hexNibble c).isSome = true :=
  ⟨List.length_replicate, fun c hc => by rw [List.eq_of_mem_replicate hc]; rfl⟩
/-- The third clause at position 255, its last. -/
theorem witness_DumpLoadsItsDigits_bad :
    (List.replicate 255 'F').length = 255 ∧ (∀ c ∈ List.replicate 255 'F', Safety.isDumpCharacter c = true) ∧
    Safety.isDumpCharacter 'g' = false :=
  ⟨List.length_replicate, fun c hc => by rw [List.eq_of_mem_replicate hc]; rfl, rfl⟩
theorem witness_OpenBusRead : Memory.find oneNop.mem 0#8 = some 0#4 ∧ Memory.find oneNop.mem 1#8 = none := by decide
theorem witness_ArrayPortsAgreeWithBus_rvalid : (arrayOut oneNop.mem ⟨0#8, false, true, 0#4⟩).rvalid = true ∧
    (arrayOut oneNop.mem ⟨1#8, false, true, 0#4⟩).rvalid = false := by decide
theorem witness_ArrayPortsAgreeWithBus : ∃ p : ArrayIn, p.we = true ∧ p.re = true := ⟨⟨0#8, true, true, 0#4⟩, rfl, rfl⟩
theorem witness_AddWithCarry : (addC 15#4 1#4).2 = 1#4 := by decide
theorem witness_AluArithmetic : (1#4 : Nibble) ≠ 0#4 ∧ (0#4 : Nibble) = 0#4 := by decide
theorem witness_NegationIsAdditiveInverse : (15#4 : Nibble) ≠ 0#4 ∧ (0#4 : Nibble) = 0#4 := by decide
theorem witness_StepRunsDecodedInstruction :
    oneNop.run = .running ∧
    decode [busValue oneNop oneNop.ip, (Memory.find oneNop.mem (oneNop.ip + 1#8)).getD (busValue oneNop oneNop.ip)] =
      .ok (.nop, [0#4]) ∧ Instr.wellFormed .nop = true := ⟨rfl, rfl, rfl⟩
theorem witness_StepRunsDecodedInstruction_push :
    (mk 0#8 0#8 0#4 [(0#8, 1#4)]).run = .running ∧
    decode [busValue (mk 0#8 0#8 0#4 [(0#8, 1#4)]) 0#8, (Memory.find (mk 0#8 0#8 0#4 [(0#8, 1#4)]).mem 1#8).getD 1#4] =
      .ok (.push 1#4, []) := ⟨rfl, rfl⟩
theorem witness_HaltedUntilReset :
    (haltRun oneNop).run = .halted ∧ ∀ op ∈ [HostOp.cycle, .write 3#8 4#4], ∀ image, op ≠ .reset image := by
  exact ⟨rfl, by simp⟩
theorem witness_OnlyHaltAndIllegalOpcodesStop : ∃ t, step (at16 0xF#4) = .next t ∧ t.run = .halted := ⟨_, rfl, rfl⟩
theorem witness_RunsInOneCycle : ∀ i ∈ [Instr.nop, .pop, .add, .subtract, .jumpNonZero, .call, .ret, .load, .store,
    .illegalA, .illegalB, .illegalC, .illegalD, .illegalE, .halt],
    (at16 (opcodeOf i)).run = .running ∧ fetchedOpcode (at16 (opcodeOf i)) = opcodeOf i := by decide
theorem witness_IllegalOpcodesHaltSilently : Safety.isIllegal .illegalC = true := rfl
theorem witness_PushWritesImmediate : (at16 1#4).run = .running ∧ fetchedOpcode (at16 1#4) = 1#4 := by decide
/-- `Rippled`, first clause, at the largest sum that does not carry. -/
theorem witness_AddRipplesAddend_no_carry :
    (Safety.pop2 (adding 8#4 7#4 [])).toNat + (Safety.pop1 (adding 8#4 7#4 [])).toNat = 15 := by decide
/-- `Rippled`, second clause, `k = 0`, the cell below unwritten. -/
theorem witness_AddRipplesAddend_stops_below :
    16 ≤ (Safety.pop2 (adding 8#4 8#4 [])).toNat + (Safety.pop1 (adding 8#4 8#4 [])).toNat ∧
    Memory.find (adding 8#4 8#4 []).mem (0x11#8 - BitVec.ofNat 8 (0 + 1)) ≠ some 15#4 := by decide
theorem ring_find (a b : Addr) (v : Nibble) (h : b ≠ a) : Memory.find (ring a v) b = some 15#4 := by
  rw [ring, Memory.find_put_other _ _ h, Memory.find_load, if_pos (Nat.zero_le _), List.getElem?_replicate,
    if_pos (by have := b.isLt; omega)]

/-- An Add at 11 whose first ripple cell is 11, in a memory where every cell but `a` holds 15. -/
def addInRing (a : Addr) (v : Nibble) : State := { mk 0x80#8 0x12#8 3#4 [] with mem := ring a v }

/-- `Rippled`, second clause, `k = 254`: the ripple from 11 ends at the popped cell 12. -/
theorem witness_AddRipplesAddend_stops_last :
    16 ≤ (Safety.pop2 (addInRing 0x12#8 1#4)).toNat + (Safety.pop1 (addInRing 0x12#8 1#4)).toNat ∧
    (∀ j : Nat, j < 254 → Memory.find (addInRing 0x12#8 1#4).mem (0x11#8 - BitVec.ofNat 8 (j + 1)) = some 15#4) ∧
    Memory.find (addInRing 0x12#8 1#4).mem (0x11#8 - BitVec.ofNat 8 (254 + 1)) ≠ some 15#4 := by
  refine ⟨by decide +kernel, fun j hj => ?_, by decide +kernel⟩
  refine ring_find 0x12#8 _ 1#4 fun e => ?_
  rw [← BitVec.toNat_inj, BitVec.toNat_sub] at e
  simp at e
  omega

/-- `Rippled`, third clause: every cell but the first of the ripple holds 15. -/
theorem witness_AddRipplesAddend_all_round :
    16 ≤ (Safety.pop2 (addInRing 0x11#8 1#4)).toNat + (Safety.pop1 (addInRing 0x11#8 1#4)).toNat ∧
    ∀ b : Addr, b ≠ 0x11#8 → Memory.find (addInRing 0x11#8 1#4).mem b = some 15#4 :=
  ⟨by decide +kernel, fun b hb => ring_find 0x11#8 b 1#4 hb⟩
theorem witness_SubtractRipplesNegation : Safety.pop1 (at16 4#4) ≠ 0#4 := by decide
theorem witness_ArithmeticAccessOrder : (at16 3#4).run = .running ∧ fetchedOpcode (at16 3#4) = opcodeOf .add := by decide
/-- Each clause of `UnwrittenOperandsAreTheOpcode`. -/
theorem witness_UnwrittenOperandsAreTheOpcode : ∀ op ∈ [5#4, 6#4, 7#4, 8#4, 9#4],
    (mk 0#8 0x12#8 0#4 [(0#8, op)]).run = .running ∧
    Memory.find (mk 0#8 0x12#8 0#4 [(0#8, op)]).mem 0x12#8 = none ∧
    Memory.find (mk 0#8 0x12#8 0#4 [(0#8, op)]).mem 0x11#8 = none ∧
    Memory.find (mk 0#8 0x12#8 0#4 [(0#8, op)]).mem 0x10#8 = none ∧
    Memory.find (mk 0#8 0x12#8 0#4 [(0#8, op)]).mem 0x88#8 = none ∧
    fetchedOpcode (mk 0#8 0x12#8 0#4 [(0#8, op)]) = op := by decide
/-- A Store over the next opcode (V-ST-2). -/
theorem witness_WrittenCellIsFetched : (memWrite 0#8 5#4 oneNop).ip = 0#8 ∧
    ∃ t, exec .store (mk 0#8 0x12#8 9#4 [(0#8, 9#4), (1#8, 0xF#4), (0x10#8, 0#4), (0x11#8, 0#4), (0x12#8, 1#4)]) = .next t ∧
      storeAddress (mk 0#8 0x12#8 9#4 [(0#8, 9#4), (1#8, 0xF#4), (0x10#8, 0#4), (0x11#8, 0#4), (0x12#8, 1#4)]) = t.ip :=
  ⟨rfl, _, rfl, rfl⟩
/-- `RippleIsExactAddition`, a ripple of two steps (`m = 1`), its cells written. -/
theorem witness_RippleIsExactAddition :
    ripple 1 0x11#8 8#4 (adding 8#4 8#4 [(0x10#8, 3#4)]) = none ∧
    (∃ t, ripple 2 0x11#8 8#4 (adding 8#4 8#4 [(0x10#8, 3#4)]) = some t) ∧
    Safety.cellsDown (adding 8#4 8#4 [(0x10#8, 3#4)]).mem 2 0x11#8 = [8#4, 3#4].map some := ⟨rfl, ⟨_, rfl⟩, rfl⟩
/-- `RippleIsExactAddition` at its upper boundary, `m = 255` (V-ADD-9). -/
theorem witness_RippleIsExactAddition_longest :
    (ripple 255 0xFF#8 3#4 { mk 1#8 0xFF#8 3#4 [] with mem := ring 0#8 3#4 }).isNone = true ∧
    (ripple 256 0xFF#8 3#4 { mk 1#8 0xFF#8 3#4 [] with mem := ring 0#8 3#4 }).isSome = true := by decide +kernel
/-- V-ADD-10: the bound of 257 steps is reached. -/
theorem test_ripple_bound_reached :
    (ripple 256 0#8 15#4 (mk 1#8 0#8 15#4 []  |>.setMem ((Memory.load 0 (List.replicate 256 15#4)).drop 1))).isNone = true ∧
    (ripple 257 0#8 15#4 (mk 1#8 0#8 15#4 []  |>.setMem ((Memory.load 0 (List.replicate 256 15#4)).drop 1))).isSome = true := by
  decide +kernel
theorem witness_StepKeepsMemoryCanonical : Safety.Inv (at16 9#4) ∧ ∃ t, step (at16 9#4) = .next t := ⟨rfl, _, rfl⟩
theorem witness_ResetMemoryIsCanonical : ∃ t, resetWith .default [1#4, 5#4] = some t := ⟨_, rfl⟩
theorem witness_WrittenCellsStayWritten : ∃ t, step (at16 9#4) = .next t ∧ isOpen (at16 9#4).mem 0x10#8 = false := ⟨_, rfl, rfl⟩
theorem witness_IpAfterEachInstruction : (at16 5#4).run = .running ∧ ∃ t, step (at16 5#4) = .next t := ⟨rfl, _, rfl⟩
theorem witness_SpChangeOfEachInstruction : (at16 9#4).run = .running ∧ ∃ t, step (at16 9#4) = .next t := ⟨rfl, _, rfl⟩
theorem witness_LatchIsLastNibbleMoved : ∃ tr t, cycleAccesses (at16 9#4) = some (tr, t) := ⟨_, _, rfl⟩
theorem witness_EmptyMemoryRunsNops : State.reset.run = .running ∧ State.reset.latch = 0#4 ∧ State.reset.mem = [] :=
  ⟨rfl, rfl, rfl⟩
theorem witness_ResetLeavesImageAndRegisters :
    (List.replicate 256 (0#4 : Nibble)).length ≤ 256 ∧ 256 < (List.replicate 257 (0#4 : Nibble)).length := by
  decide +kernel
theorem witness_HostRunsComplete :
    ∀ image, HostOp.reset image ∈ [HostOp.cycle, .reset [1#4, 5#4], .write 1#8 2#4] → image.length ≤ 256 := by simp
theorem witness_SharedResetIsUniform : 1 ≤ 2 ∧ [1#4, 5#4, 0xF#4].length ≤ 256 := by decide
theorem witness_UninterruptedAccessesAreOneCycle :
    tornSystem.cpus[0]? = some (cpu 0#8 0x11#8) ∧ (cpu 0#8 0x11#8).flight = .idle := ⟨rfl, rfl⟩
/-- `OneAccessChangesOneCell`: an instance about to read, one about to write, and a halted one. -/
theorem witness_OneAccessChangesOneCell :
    (∃ y', System.apply .default (.access 0) tornSystem = some y') ∧
    request .idle ((cpu 0#8 0x11#8).view tornSystem.mem) = some (.read 0#8) ∧
    request (.pushWrite 5#4) ((cpu 0#8 0x11#8).view []) = some (.write 0x12#8 5#4) ∧
    request .idle (haltRun oneNop) = none := ⟨⟨_, rfl⟩, rfl, rfl, rfl⟩
theorem witness_OtherInstancesUntouched : (1 : Nat) ≠ 0 ∧
    (∃ y', System.apply .default (.access 0) tornSystem = some y') ∧
    ∃ y', System.apply .default (.hostWrite 0 3#8 4#4) tornSystem = some y' := ⟨by decide, ⟨_, rfl⟩, _, rfl⟩
theorem witness_EveryInterleavingKeepsArray : (∃ y', System.runEvents .default (order [0, 1, 0]) tornSystem = some y') ∧
    ∀ e ∈ order [0, 1, 0], ∀ image, e ≠ .reset image := ⟨⟨_, rfl⟩, by simp [order]⟩
theorem witness_HaltedInstanceIsSilent :
    ∃ y y' : System, y.cpus[0]? = some { cpu 0#8 0#8 with run := .halted } ∧
      (∀ e ∈ order [0, 1, 0], (∀ image, e ≠ .reset image) ∧ ∀ a v, e ≠ .hostWrite 0 a v) ∧
      System.runEvents .default (order [0, 1, 0]) y = some y' :=
  ⟨{ mem := [], cpus := [{ cpu 0#8 0#8 with run := .halted }, cpu 0#8 0#8] }, _, rfl, by simp [order], rfl⟩

end Sys2Proof.Tests
end

section
/-! PROOFS. The address helpers of spec/00_scope.md R6: the two halves of an address, and the 8-bit ring. -/

namespace Sys2Proof.Machine

/-! The two halves: neither `hi` nor `lo` loses a bit to its four, and `combine` loses none to its eight. -/

@[simp] theorem hi_toNat (a : Addr) : (hi a).toNat = a.toNat / 16 := by
  have hlt : a.toNat / 16 < 16 := by omega
  rw [hi, BitVec.toNat_ofNat]
  exact Nat.mod_eq_of_lt hlt

@[simp] theorem lo_toNat (a : Addr) : (lo a).toNat = a.toNat % 16 := by
  have hlt : a.toNat % 16 < 16 := by omega
  rw [lo, BitVec.toNat_ofNat]
  exact Nat.mod_eq_of_lt hlt

@[simp] theorem combine_toNat (h l : Nibble) : (combine h l).toNat = 16 * h.toNat + l.toNat := by
  have hlt : 16 * h.toNat + l.toNat < 256 := by omega
  rw [combine, BitVec.toNat_ofNat]
  exact Nat.mod_eq_of_lt hlt

@[simp] theorem combine_hi_lo (a : Addr) : combine (hi a) (lo a) = a := by
  apply BitVec.eq_of_toNat_eq
  rw [combine_toNat, hi_toNat, lo_toNat]
  exact Nat.div_add_mod a.toNat 16

/-! The ring: an integer enters it by its residue, and the sum and difference of two addresses are reduced again. -/

theorem addr_ofInt_toNat (k : Int) : ((BitVec.ofInt 8 k).toNat : Int) = k % 256 := by
  rw [BitVec.toNat_ofInt]
  exact Int.toNat_of_nonneg (Int.emod_nonneg k (by decide))

theorem addr_add_ofInt_toNat (a : Addr) (k : Int) :
    ((a + BitVec.ofInt 8 k).toNat : Int) = ((a.toNat : Int) + k) % 256 := by
  have hk := addr_ofInt_toNat k
  rw [BitVec.toNat_add]
  omega

theorem addr_sub_ofInt_toNat (a : Addr) (k : Int) :
    ((a - BitVec.ofInt 8 k).toNat : Int) = ((a.toNat : Int) - k) % 256 := by
  have hk := addr_ofInt_toNat k
  rw [BitVec.toNat_sub]
  omega

/-- Settles O11: the halves of an address by their values, and the ring by the residue of the integer. -/
theorem addressHelpers : Obligations.AddressHelpers :=
  ⟨fun a => ⟨hi_toNat a, lo_toNat a, combine_hi_lo a⟩,
   combine_toNat,
   fun a k => ⟨addr_add_ofInt_toNat a k, addr_sub_ofInt_toNat a k⟩⟩

end Sys2Proof.Machine
end

section
/-! PROOFS. The memory array and the open-bus latch (spec/20_memory.md R27): a bus read of a written and of an
unwritten cell. -/

namespace Sys2Proof.Machine

/-- The latch set to what it already holds: why a read of an unwritten cell changes nothing. -/
@[simp] theorem State.setLatch_self (s : State) : s.setLatch s.latch = s := rfl

theorem memRead_written {a : Addr} {s : State} {v : Nibble} (h : Memory.find s.mem a = some v) :
    memRead a s = (v, s.setLatch v) := by
  rw [memRead_spec, busValue_written h]

theorem memRead_unwritten {a : Addr} {s : State} (h : Memory.find s.mem a = none) : memRead a s = (s.latch, s) := by
  rw [memRead_spec, busValue_unwritten h, State.setLatch_self]

/-- Settles O12: a read answers the open-bus value, so the two cases of the cell are the two cases of that value. -/
theorem openBusRead : Obligations.OpenBusRead :=
  fun _ _ => ⟨fun _ hwritten => memRead_written hwritten, memRead_unwritten⟩

end Sys2Proof.Machine
end

section
/-! PROOFS. The ALU block (spec/40_alu.md R73, R74, R81 to R83): the two outputs of `AddC` by their values, `ADD` as the
first of them, and the bitwise operators by their bits. -/

namespace Sys2Proof.Machine

/-! `AddC`: the sum is reduced modulo 16, and the carry of two nibbles, whose sum is at most 30, fits its nibble. -/

@[simp] theorem addC_sum_toNat (a b : Nibble) : (addC a b).1.toNat = (a.toNat + b.toNat) % 16 := by
  rw [addC, BitVec.toNat_ofNat]
  exact Nat.mod_mod _ 16

@[simp] theorem addC_carry_toNat (a b : Nibble) : (addC a b).2.toNat = (a.toNat + b.toNat) / 16 := by
  have hlt : (a.toNat + b.toNat) / 16 < 16 := by omega
  rw [addC, BitVec.toNat_ofNat]
  exact Nat.mod_eq_of_lt hlt

theorem addC_comm (a b : Nibble) : addC a b = addC b a := by
  rw [addC, addC, Nat.add_comm]

theorem addC_carry_eq_one_iff (a b : Nibble) : (addC a b).2 = 1#4 ↔ 16 ≤ a.toNat + b.toNat := by
  rw [← BitVec.toNat_inj, addC_carry_toNat, BitVec.toNat_ofNat]
  omega

theorem addC_sum_le_of_carry {a b : Nibble} (hcarry : (addC a b).2 = 1#4) : (addC a b).1.toNat ≤ 14 := by
  have hover : 16 ≤ a.toNat + b.toNat := (addC_carry_eq_one_iff a b).1 hcarry
  rw [addC_sum_toNat]
  omega

/-- Settles O16: the values of the two outputs, their symmetry, and R73's corner cases of the carry. -/
theorem addWithCarry : Obligations.AddWithCarry :=
  fun a b => ⟨addC_sum_toNat a b, addC_carry_toNat a b, addC_comm a b, addC_carry_eq_one_iff a b, addC_sum_le_of_carry⟩

/-- R74 against R73: truncating to a nibble is the reduction modulo 16 that `AddC` makes. -/
theorem aluAdd_eq_addC_sum (a b : Nibble) : aluAdd a b = (addC a b).1 := by
  apply BitVec.eq_of_toNat_eq
  rw [aluAdd, BitVec.toNat_ofNat, addC_sum_toNat]

/-- Settles O17: `ADD` is the sum of `AddC`, whose value is known. -/
theorem aluAddWraps : Obligations.AluAddWraps := by
  intro a b
  refine ⟨aluAdd a b, rfl, ?_, aluAdd_eq_addC_sum a b⟩
  rw [aluAdd_eq_addC_sum, addC_sum_toNat]

/-! The bitwise operators, at every bit. -/

@[simp] theorem aluAnd_getLsbD (a b : Nibble) (i : Nat) : (aluAnd a b).getLsbD i = (a.getLsbD i && b.getLsbD i) :=
  BitVec.getLsbD_and

@[simp] theorem aluOr_getLsbD (a b : Nibble) (i : Nat) : (aluOr a b).getLsbD i = (a.getLsbD i || b.getLsbD i) :=
  BitVec.getLsbD_or

@[simp] theorem aluXor_getLsbD (a b : Nibble) (i : Nat) : (aluXor a b).getLsbD i = (a.getLsbD i != b.getLsbD i) :=
  BitVec.getLsbD_xor

/-- Settles O19: each operator has a value, and its bits are the operator's at the bits of the operands. -/
theorem aluBitwise : Obligations.AluBitwise :=
  fun a b =>
    ⟨⟨aluAnd a b, rfl, fun i _ => aluAnd_getLsbD a b i⟩,
     ⟨aluOr a b, rfl, fun i _ => aluOr_getLsbD a b i⟩,
     ⟨aluXor a b, rfl, fun i _ => aluXor_getLsbD a b i⟩⟩

end Sys2Proof.Machine
end

section
/-! PROOFS. The decoder and the encoder (spec/30_encoding.md R47 to R57): what each opcode selects, that `decode` and
`encode` undo each other, and disassembly. -/

namespace Sys2Proof

/-! One opcode: `decodeOpcode` and `opcodeOf` undo each other, and only Push has an immediate. -/

@[simp] theorem opcodeOf_decodeOpcode (op imm : Nibble) : opcodeOf (decodeOpcode op imm) = op := by
  revert op imm; decide

theorem decodeOpcode_opcodeOf {i : Instr} (hpush : ∀ imm, i ≠ .push imm) (imm : Nibble) :
    decodeOpcode (opcodeOf i) imm = i := by
  cases i with
  | push n => exact absurd rfl (hpush n)
  | _ => rfl

theorem immediateOf_of_not_push {i : Instr} (hpush : ∀ imm, i ≠ .push imm) : immediateOf i = [] := by
  cases i with
  | push n => exact absurd rfl (hpush n)
  | _ => rfl

theorem opcodeOf_eq_one_iff (i : Instr) : opcodeOf i = 1#4 ↔ ∃ imm, i = .push imm := by
  cases i <;> simp [opcodeOf]

theorem decodeOpcode_not_push {op : Nibble} (hop : op ≠ 1#4) (imm n : Nibble) : decodeOpcode op imm ≠ .push n := by
  intro h
  have hone : opcodeOf (decodeOpcode op imm) = 1#4 := (opcodeOf_eq_one_iff _).2 ⟨n, h⟩
  exact hop (opcodeOf_decodeOpcode op imm ▸ hone)

@[simp] theorem opcodeLength_eq_two_iff (op : Nibble) : opcodeLength op = 2 ↔ op = 1#4 := by
  by_cases h : op = 1#4 <;> simp [opcodeLength, h]

/-- Settles O1: each row of R50's table is an arm of `decodeOpcode`. -/
theorem opcodeMapAndLengths : Obligations.OpcodeMapAndLengths :=
  ⟨fun _ => ⟨rfl, rfl, rfl, rfl, rfl, rfl, rfl, rfl, rfl, rfl, rfl, rfl, rfl, rfl, rfl, rfl⟩, fun _ => rfl⟩

/-- Settles O2: the decoder evaluated at the written-out words. -/
theorem writtenWordsDecode : Obligations.WrittenWordsDecode :=
  ⟨rfl, rfl, rfl, rfl, rfl, rfl, rfl, rfl⟩

/-! A sequence of nibbles: the decoder takes two nibbles for a Push and one for any other opcode. -/

@[simp] theorem decode_nil : decode [] = .error .noOpcode := rfl

@[simp] theorem decode_push (imm : Nibble) (rest : List Nibble) : decode (1#4 :: imm :: rest) = .ok (.push imm, rest) :=
  rfl

@[simp] theorem decode_push_cut : decode [1#4] = .error .noImmediate := rfl

theorem decode_of_not_push {op : Nibble} (hop : op ≠ 1#4) (rest : List Nibble) :
    decode (op :: rest) = .ok (decodeOpcode op 0#4, rest) := by
  simp [decode, hop]

theorem decode_encode (i : Instr) (rest : List Nibble) : decode (encode i ++ rest) = .ok (i, rest) := by
  cases i with
  | push imm => exact decode_push imm rest
  | _ => rfl

/-- Settles O3: decoding undoes encoding, whatever the instruction. -/
theorem decodeOfEncode : Obligations.DecodeOfEncode := fun i rest _ => decode_encode i rest

theorem encode_decodeOpcode_of_not_push {op : Nibble} (hop : op ≠ 1#4) (imm : Nibble) :
    encode (decodeOpcode op imm) = [op] := by
  rw [encode, opcodeOf_decodeOpcode, immediateOf_of_not_push (decodeOpcode_not_push hop imm)]

/-- What decoding can do, told by the sequence: there is no opcode, a Push is cut, or an instruction's encoding comes
first and is decoded. -/
theorem decode_cases (ns : List Nibble) :
    (ns = [] ∧ decode ns = .error .noOpcode) ∨ (ns = [1#4] ∧ decode ns = .error .noImmediate) ∨
    ∃ i rest, ns = encode i ++ rest ∧ decode ns = .ok (i, rest) := by
  match ns with
  | [] => exact .inl ⟨rfl, rfl⟩
  | op :: rest =>
    by_cases hop : op = 1#4
    · subst hop
      match rest with
      | [] => exact .inr (.inl ⟨rfl, rfl⟩)
      | imm :: rest => exact .inr (.inr ⟨.push imm, rest, rfl, rfl⟩)
    · refine .inr (.inr ⟨decodeOpcode op 0#4, rest, ?_, decode_of_not_push hop rest⟩)
      rw [encode_decodeOpcode_of_not_push hop, List.singleton_append]

theorem eq_encode_append_of_decode {ns rest : List Nibble} {i : Instr} (h : decode ns = .ok (i, rest)) :
    ns = encode i ++ rest := by
  obtain ⟨-, he⟩ | ⟨-, he⟩ | ⟨j, rest', hns, hj⟩ := decode_cases ns
  · simp [he] at h
  · simp [he] at h
  · obtain ⟨rfl, rfl⟩ : j = i ∧ rest' = rest := by simpa [hj] using h
    exact hns

/-- Settles O4: of the cases of decoding, only that of an encoding coming first gives an instruction. -/
theorem encodeOfDecode : Obligations.EncodeOfDecode := fun _ _ _ h => eq_encode_append_of_decode h

/-- Settles O5: each of the two errors belongs to one of the two cut sequences. -/
theorem decodeRejectsOnlyCutSequences : Obligations.DecodeRejectsOnlyCutSequences := by
  intro ns e
  constructor
  · intro h
    obtain ⟨hns, he⟩ | ⟨hns, he⟩ | ⟨i, rest, -, hi⟩ := decode_cases ns
    · exact .inl ⟨hns, by simpa [he] using h.symm⟩
    · exact .inr ⟨hns, by simpa [he] using h.symm⟩
    · simp [hi] at h
  · rintro (⟨rfl, rfl⟩ | ⟨rfl, rfl⟩)
    · exact decode_nil
    · exact decode_push_cut

/-! Disassembly, instruction after instruction. -/

theorem disassembleFrom_succ_of_decode {ns rest : List Nibble} {i : Instr} (h : decode ns = .ok (i, rest))
    (fuel : Nat) : disassembleFrom (fuel + 1) ns = (disassembleFrom fuel rest).map (i :: ·) := by
  cases ns with
  | nil => simp at h
  | cons n ns => cases hd : disassembleFrom fuel rest <;> simp [disassembleFrom, h, hd, Except.map]

@[simp] theorem disassembleFrom_nil (fuel : Nat) : disassembleFrom fuel [] = .ok [] := by
  cases fuel <;> rfl

/-- With one unit of fuel for each instruction, disassembly gives the instructions and goes on after them. -/
theorem disassembleFrom_encodeProgram_append (is : List Instr) (rest : List Nibble) (fuel : Nat) :
    disassembleFrom (fuel + is.length) (encodeProgram is ++ rest) = (disassembleFrom fuel rest).map (is ++ ·) := by
  induction is with
  | nil => cases hd : disassembleFrom fuel rest <;> simp [hd, Except.map]
  | cons i is ih =>
    have hdecode : decode (encodeProgram (i :: is) ++ rest) = .ok (i, encodeProgram is ++ rest) := by
      rw [Machine.encodeProgram_cons, List.append_assoc, decode_encode]
    rw [List.length_cons, ← Nat.add_assoc, disassembleFrom_succ_of_decode hdecode, ih]
    cases disassembleFrom fuel rest <;> rfl

theorem length_le_length_encodeProgram (is : List Instr) : is.length ≤ (encodeProgram is).length := by
  induction is with
  | nil => simp
  | cons i is ih =>
    simp only [Machine.encodeProgram_cons, encode, List.length_cons, List.length_append]
    omega

/-- Disassembly of an image that begins with a program: the length is fuel enough for the program and what follows. -/
theorem disassemble_encodeProgram_append (is : List Instr) (rest : List Nibble) :
    ∃ fuel, rest.length ≤ fuel ∧
      disassemble (encodeProgram is ++ rest) = (disassembleFrom fuel rest).map (is ++ ·) := by
  have hlen := length_le_length_encodeProgram is
  refine ⟨(encodeProgram is ++ rest).length - is.length, ?_, ?_⟩
  · rw [List.length_append]; omega
  · rw [← disassembleFrom_encodeProgram_append, disassemble, Nat.sub_add_cancel]
    rw [List.length_append]; omega

theorem disassemble_encodeProgram (is : List Instr) : disassemble (encodeProgram is) = .ok is := by
  obtain ⟨fuel, -, h⟩ := disassemble_encodeProgram_append is []
  simpa [Except.map] using h

/-- An image that ends in a lone Push opcode is rejected (log 27). -/
theorem disassemble_encodeProgram_cut (is : List Instr) :
    disassemble (encodeProgram is ++ [opcodeOf (.push 0#4)]) = .error .noImmediate := by
  obtain ⟨fuel, hfuel, h⟩ := disassemble_encodeProgram_append is [opcodeOf (.push 0#4)]
  obtain ⟨n, rfl⟩ : ∃ n, fuel = n + 1 := ⟨fuel - 1, by simp at hfuel; omega⟩
  rw [h]
  rfl

theorem encodeProgram_of_disassembleFrom {fuel : Nat} {ns : List Nibble} {is : List Instr}
    (h : disassembleFrom fuel ns = .ok is) : encodeProgram is = ns := by
  induction fuel generalizing ns is with
  | zero =>
    cases ns with
    | nil => obtain rfl : is = [] := by simpa using h.symm
             rfl
    | cons n ns => simp [disassembleFrom] at h
  | succ fuel ih =>
    obtain ⟨rfl, -⟩ | ⟨rfl, he⟩ | ⟨i, rest, rfl, hi⟩ := decode_cases ns
    · obtain rfl : is = [] := by simpa using h.symm
      rfl
    · simp [disassembleFrom] at h
    · rw [disassembleFrom_succ_of_decode hi] at h
      cases hrest : disassembleFrom fuel rest with
      | error e => simp [hrest, Except.map] at h
      | ok js =>
        obtain rfl : i :: js = is := by simpa [hrest, Except.map] using h
        rw [Machine.encodeProgram_cons, ih hrest]

/-- The other direction of disassembly: an image that disassembles is the encoding of what it disassembles to. -/
theorem encodeProgram_of_disassemble {ns : List Nibble} {is : List Instr} (h : disassemble ns = .ok is) :
    encodeProgram is = ns :=
  encodeProgram_of_disassembleFrom h

end Sys2Proof
end

section
/-! PROOFS. The assembler (spec/30_encoding.md part 6): node lengths and emitted nibbles, labels, label-free programs
and their disassembly, and the source tokens. -/

namespace Sys2Proof.Machine

/-! The image of a program, node by node. -/

theorem emitNodes_cons_of_ok {table : List (String × Nat)} {n : Node} {rest : List Node} {ns ns' : List Nibble}
    {ws ws' : List String} (hn : n.emit table = .ok (ns, ws)) (hrest : emitNodes table rest = .ok (ns', ws')) :
    emitNodes table (n :: rest) = .ok (ns ++ ns', ws ++ ws') := by
  simp [emitNodes, hn, hrest]

/-- An image of a program is its first node's nibbles and then an image of the rest. -/
theorem emitNodes_cons_inv {table : List (String × Nat)} {n : Node} {rest : List Node} {image : List Nibble}
    {warnings : List String} (h : emitNodes table (n :: rest) = .ok (image, warnings)) :
    ∃ ns ws ns' ws', n.emit table = .ok (ns, ws) ∧ emitNodes table rest = .ok (ns', ws') ∧
      image = ns ++ ns' ∧ warnings = ws ++ ws' := by
  cases hn : n.emit table with
  | error e => simp [emitNodes, hn] at h
  | ok r =>
    cases hrest : emitNodes table rest with
    | error e => simp [emitNodes, hn, hrest] at h
    | ok r' =>
      obtain ⟨rfl, rfl⟩ : r.1 ++ r'.1 = image ∧ r.2 ++ r'.2 = warnings := by simpa [emitNodes, hn, hrest] using h
      exact ⟨r.1, r.2, r'.1, r'.2, rfl, rfl, rfl, rfl⟩

theorem emitNodes_of_assemble {nodes : List Node} {r : List Nibble × List String} (h : assemble nodes = .ok r) :
    emitNodes (labelTable 0 nodes) nodes = .ok r := by
  simp only [assemble] at h
  split at h
  · cases h
  · exact h

/-! Lengths (R64). -/

theorem resolve_length {table : List (String × Nat)} {d : Datum} {ns : List Nibble} {ws : List String}
    (h : d.resolve table = .ok (ns, ws)) : ns.length = d.size := by
  cases d with
  | literal digits =>
    obtain ⟨rfl, -⟩ : digits = ns ∧ [] = ws := by simpa [Datum.resolve] using h
    rfl
  | label name =>
    simp only [Datum.resolve] at h
    split at h
    · obtain ⟨rfl, -⟩ : [0#4, 0#4] = ns ∧ [name] = ws := by simpa using h
      rfl
    · split at h
      · obtain ⟨rfl, -⟩ := Prod.mk.inj (Except.ok.inj h)
        rfl
      · cases h

@[simp] theorem pushNibbles_length (ns : List Nibble) : (pushNibbles ns).length = 2 * ns.length := by
  induction ns with
  | nil => rfl
  | cons n ns ih =>
    simp only [pushNibbles, encode, immediateOf, List.length_append, List.length_cons, List.length_nil, ih]
    omega

/-- A pushed datum resolves as the datum does, each of its nibbles then pushed. -/
theorem emit_push_inv {table : List (String × Nat)} {d : Datum} {ns : List Nibble} {ws : List String}
    (h : (Node.push d).emit table = .ok (ns, ws)) : ∃ ds, d.resolve table = .ok (ds, ws) ∧ ns = pushNibbles ds := by
  cases hd : d.resolve table with
  | error e => simp [Node.emit, hd] at h
  | ok r =>
    obtain ⟨rfl, rfl⟩ : pushNibbles r.1 = ns ∧ r.2 = ws := by simpa [Node.emit, hd] using h
    exact ⟨r.1, rfl, rfl⟩

theorem emit_length {table : List (String × Nat)} {n : Node} {ns : List Nibble} {ws : List String}
    (h : n.emit table = .ok (ns, ws)) : ns.length = n.size := by
  cases n with
  | filler d => exact resolve_length h
  | push d =>
    obtain ⟨ds, hds, rfl⟩ := emit_push_inv h
    rw [pushNibbles_length, resolve_length hds, Node.size]
  | _ =>
    obtain ⟨rfl, -⟩ := Prod.mk.inj (Except.ok.inj h)
    rfl

theorem emitNodes_length {table : List (String × Nat)} {nodes : List Node} {image : List Nibble}
    {warnings : List String} (h : emitNodes table nodes = .ok (image, warnings)) :
    image.length = Safety.sizeOf nodes := by
  induction nodes generalizing image warnings with
  | nil =>
    obtain ⟨rfl, -⟩ := Prod.mk.inj (Except.ok.inj h)
    rfl
  | cons n rest ih =>
    obtain ⟨ns, ws, ns', ws', hn, hrest, rfl, -⟩ := emitNodes_cons_inv h
    rw [List.length_append, emit_length hn, ih hrest, Safety.sizeOf]

/-- Settles O8: the lengths of the nodes' nibbles add up. -/
theorem assembledLengthIsNodeLengths : Obligations.AssembledLengthIsNodeLengths :=
  fun _ _ _ h => emitNodes_length (emitNodes_of_assemble h)

/-! Labels (R65, R66). -/

theorem labelTable_cons {n : Node} (hn : ∀ name, n ≠ .labelDef name) (offset : Nat) (rest : List Node) :
    labelTable offset (n :: rest) = labelTable (offset + n.size) rest := by
  cases n with
  | labelDef name => exact absurd rfl (hn name)
  | _ => rfl

theorem labelOffset_labelTable {before : List Node} {name : String} (hbefore : ∀ n ∈ before, n ≠ .labelDef name)
    (after : List Node) (offset : Nat) :
    labelOffset (labelTable offset (before ++ .labelDef name :: after)) name =
      some (offset + Safety.sizeOf before) := by
  induction before generalizing offset with
  | nil => simp [labelTable, labelOffset, Safety.sizeOf]
  | cons n before ih =>
    have hrest := ih fun m hm => hbefore m (List.mem_cons_of_mem _ hm)
    have hn : n ≠ .labelDef name := hbefore n List.mem_cons_self
    by_cases hdef : ∃ other, n = .labelDef other
    · obtain ⟨other, rfl⟩ := hdef
      have hne : other ≠ name := fun e => hn (congrArg Node.labelDef e)
      simp [labelTable, labelOffset, hne, hrest, Safety.sizeOf, Node.size]
    · rw [List.cons_append, labelTable_cons (fun other e => hdef ⟨other, e⟩), hrest, Safety.sizeOf, Nat.add_assoc]

theorem resolve_label_of_lt {table : List (String × Nat)} {name : String} {v : Nat}
    (h : labelOffset table name = some v) (hv : v < memCells) :
    (Datum.label name).resolve table = .ok ([hi (BitVec.ofNat 8 v), lo (BitVec.ofNat 8 v)], []) := by
  simp only [Datum.resolve, h, if_pos hv]

theorem resolve_label_of_le {table : List (String × Nat)} {name : String} {v : Nat}
    (h : labelOffset table name = some v) (hv : memCells ≤ v) :
    (Datum.label name).resolve table = .error (.offsetBeyondMemory name) := by
  simp only [Datum.resolve, h, if_neg (Nat.not_lt.2 hv)]

/-- Settles O9: the offset the table gives the label is the length before its definition. -/
theorem labelIsOffsetOfItsDefinition : Obligations.LabelIsOffsetOfItsDefinition := by
  intro before after name hbefore
  have hoffset := labelOffset_labelTable hbefore after 0
  rw [Nat.zero_add] at hoffset
  refine ⟨fun hlt => ⟨BitVec.ofNat 8 (Safety.sizeOf before), ?_, resolve_label_of_lt hoffset hlt⟩,
    resolve_label_of_le hoffset⟩
  rw [BitVec.toNat_ofNat]
  exact Nat.mod_eq_of_lt hlt

/-! Programs without labels (R57). -/

theorem nodeInstrs_not_labelDef {n : Node} {is : List Instr} (h : Safety.nodeInstrs n = some is) (name : String) :
    n ≠ .labelDef name := by
  rintro rfl
  simp [Safety.nodeInstrs] at h

/-- A node emits the encoding of the instructions it stands for, with no warning. -/
theorem emit_of_nodeInstrs {n : Node} {is : List Instr} (h : Safety.nodeInstrs n = some is)
    (table : List (String × Nat)) : n.emit table = .ok (encodeProgram is, []) := by
  cases n with
  | labelDef name => exact absurd rfl (nodeInstrs_not_labelDef h name)
  | filler d =>
    cases d with
    | label name => simp [Safety.nodeInstrs] at h
    | literal ns =>
      have hns : disassemble ns = .ok is := by
        cases hd : disassemble ns <;> simp_all [Safety.nodeInstrs, Except.toOption]
      rw [encodeProgram_of_disassemble hns]
      rfl
  | push d =>
    cases d with
    | label name => simp [Safety.nodeInstrs] at h
    | literal ns =>
      obtain rfl : ns.map Instr.push = is := Option.some.inj h
      rw [← pushNibbles_eq]
      rfl
  | _ =>
    obtain rfl := Option.some.inj h
    rfl

theorem programInstrs_cons_inv {n : Node} {nodes : List Node} {is : List Instr}
    (h : Safety.programInstrs (n :: nodes) = some is) :
    ∃ is' js, Safety.nodeInstrs n = some is' ∧ Safety.programInstrs nodes = some js ∧ is = is' ++ js := by
  simp only [Safety.programInstrs] at h
  split at h
  · rename_i is' js hn hrest
    exact ⟨is', js, hn, hrest, (Option.some.inj h).symm⟩
  · cases h
  · cases h

theorem labelTable_of_programInstrs {nodes : List Node} {is : List Instr} (h : Safety.programInstrs nodes = some is)
    (offset : Nat) : labelTable offset nodes = [] := by
  induction nodes generalizing is offset with
  | nil => rfl
  | cons n nodes ih =>
    obtain ⟨is', js, hn, hrest, -⟩ := programInstrs_cons_inv h
    rw [labelTable_cons (nodeInstrs_not_labelDef hn), ih hrest]

theorem emitNodes_of_programInstrs {nodes : List Node} {is : List Instr} (h : Safety.programInstrs nodes = some is)
    (table : List (String × Nat)) : emitNodes table nodes = .ok (encodeProgram is, []) := by
  induction nodes generalizing is with
  | nil =>
    obtain rfl := Option.some.inj h
    rfl
  | cons n nodes ih =>
    obtain ⟨is', js, hn, hrest, rfl⟩ := programInstrs_cons_inv h
    rw [emitNodes_cons_of_ok (emit_of_nodeInstrs hn table) (ih hrest), encodeProgram_append]
    rfl

/-- A program without labels assembles to the image of its instructions. -/
theorem assemble_of_programInstrs {nodes : List Node} {is : List Instr} (h : Safety.programInstrs nodes = some is) :
    assemble nodes = .ok (encodeProgram is, []) := by
  have htable := labelTable_of_programInstrs h 0
  simp [assemble, htable, hasRepeat, emitNodes_of_programInstrs h]

/-- Settles O6: disassembly undoes encoding, and a label-free program assembles to an encoding. -/
theorem disassemblyRecoversProgram : Obligations.DisassemblyRecoversProgram :=
  ⟨disassemble_encodeProgram,
   fun _ is h => ⟨assemble_of_programInstrs h, disassemble_encodeProgram is⟩,
   disassemble_encodeProgram_cut⟩

/-! The source tokens (R61, R68): Subtract has none. -/

theorem map_ok_ne {ε α β : Type} {f : α → β} {b : β} (hf : ∀ a, f a ≠ b) (x : Except ε α) : x.map f ≠ .ok b := by
  cases x with
  | error e => simp [Except.map]
  | ok a => simpa [Except.map] using hf a

theorem parseWord_ne_subtract (w : List Char) : parseWord w ≠ .ok .subtract := by
  unfold parseWord
  dsimp only
  split
  case h_10 | h_11 | h_12 => exact map_ok_ne (by simp) _
  all_goals simp

/-- Settles O7: no arm of `parseWord` gives Subtract; the rest is the assembler evaluated at the texts. -/
theorem sourceTokens : Obligations.SourceTokens :=
  ⟨rfl, parseWord_ne_subtract, rfl, rfl, rfl, rfl⟩

end Sys2Proof.Machine
end

section
/-! PROOFS. The memory dump (spec/70_reset_and_hazards.md R126, R127): the outcome under both readings of the limit. -/

namespace Sys2Proof.Machine

/-! Reading a dump that is good, that has only spaces left, or that has come to a bad character. -/

theorem dumpNibbles_of_good {good : List Char} (h : ∀ c ∈ good, Safety.isDumpCharacter c = true) (pos : Nat) :
    dumpNibbles pos good = .ok (good.filterMap hexNibble) := by
  simpa [dumpNibbles, Except.map] using dumpNibbles_append good [] pos h

theorem filterMap_hexNibble_of_spaces {spaces : List Char} (h : ∀ c ∈ spaces, isDumpSpace c = true) :
    spaces.filterMap hexNibble = [] :=
  List.filterMap_eq_nil_iff.2 fun c hc => hexNibble_of_space (h c hc)

theorem isDumpCharacter_of_space {c : Char} (h : isDumpSpace c = true) : Safety.isDumpCharacter c = true := by
  simp [Safety.isDumpCharacter, h]

theorem isDumpCharacter_of_hexDigit {c : Char} (h : (hexNibble c).isSome = true) :
    Safety.isDumpCharacter c = true := by
  simp [Safety.isDumpCharacter, h]

theorem not_space_of_hexDigit {c : Char} (h : (hexNibble c).isSome = true) : isDumpSpace c = false := by
  by_contra hspace
  simp [hexNibble_of_space (Bool.eq_true_of_not_eq_false hspace)] at h

theorem not_space_of_bad {c : Char} (h : Safety.isDumpCharacter c = false) : isDumpSpace c = false :=
  (Bool.or_eq_false_iff.1 h).1

/-- Spaces after a good text add nothing. -/
theorem dumpNibbles_append_spaces {text spaces : List Char} (htext : ∀ c ∈ text, Safety.isDumpCharacter c = true)
    (hspaces : ∀ c ∈ spaces, isDumpSpace c = true) (pos : Nat) :
    dumpNibbles pos (text ++ spaces) = .ok (text.filterMap hexNibble) := by
  have hgood : ∀ c ∈ text ++ spaces, Safety.isDumpCharacter c = true := fun c hc =>
    (List.mem_append.1 hc).elim (htext c) fun hc => isDumpCharacter_of_space (hspaces c hc)
  rw [dumpNibbles_of_good hgood, List.filterMap_append, filterMap_hexNibble_of_spaces hspaces, List.append_nil]

/-- A bad character after a good text fails with its position. -/
theorem dumpNibbles_append_bad {good : List Char} {bad : Char} (hgood : ∀ c ∈ good, Safety.isDumpCharacter c = true)
    (hbad : Safety.isDumpCharacter bad = false) (rest : List Char) (pos : Nat) :
    dumpNibbles pos (good ++ bad :: rest) = .error (.badCharacter (pos + good.length)) := by
  obtain ⟨hspace, hhex⟩ : isDumpSpace bad = false ∧ hexNibble bad = none := by
    simpa [Safety.isDumpCharacter] using hbad
  rw [dumpNibbles_append good _ pos hgood]
  simp [dumpNibbles, hspace, hhex, Except.map]

/-! What is consulted where spaces are not counted. -/

theorem mem_of_mem_uptoNonSpaces {c : Char} {text : List Char} {limit : Nat} (h : c ∈ uptoNonSpaces limit text) :
    c ∈ text := by
  induction text generalizing limit with
  | nil => cases limit <;> simp [uptoNonSpaces] at h
  | cons d text ih =>
    cases limit with
    | zero => simp [uptoNonSpaces] at h
    | succ n =>
      simp only [uptoNonSpaces, List.mem_cons] at h
      obtain rfl | h := h
      · exact List.mem_cons_self
      · split at h
        · exact List.mem_cons_of_mem _ (ih h)
        · exact List.mem_cons_of_mem _ (ih h)

theorem uptoNonSpaces_cons_of_not_space {c : Char} (h : isDumpSpace c = false) (n : Nat) (text : List Char) :
    uptoNonSpaces (n + 1) (c :: text) = c :: uptoNonSpaces n text := by
  simp [uptoNonSpaces, h]

theorem uptoNonSpaces_length_append {digits : List Char} (h : ∀ c ∈ digits, (hexNibble c).isSome = true)
    (rest : List Char) : uptoNonSpaces digits.length (digits ++ rest) = digits := by
  induction digits with
  | nil => simp [uptoNonSpaces]
  | cons c digits ih =>
    rw [List.length_cons, List.cons_append,
      uptoNonSpaces_cons_of_not_space (not_space_of_hexDigit (h c List.mem_cons_self)),
      ih fun d hd => h d (List.mem_cons_of_mem _ hd)]

/-! The three outcomes. -/

theorem loadDump_append_spaces {text spaces : List Char} (hlen : text.length ≤ memCells)
    (htext : ∀ c ∈ text, Safety.isDumpCharacter c = true) (hspaces : ∀ c ∈ spaces, isDumpSpace c = true) :
    loadDump (text ++ spaces) = .ok (text.filterMap hexNibble) := by
  obtain ⟨left, -, -, hupto⟩ := uptoNonSpaces_append text spaces memCells hlen
  apply loadDump_of_both
  · rw [List.take_append, List.take_of_length_le hlen]
    exact dumpNibbles_append_spaces htext (fun c hc => hspaces c (List.mem_of_mem_take hc)) 0
  · rw [hupto]
    exact dumpNibbles_append_spaces htext (fun c hc => hspaces c (mem_of_mem_uptoNonSpaces hc)) 0

theorem loadDump_full {digits : List Char} (hlen : digits.length = memCells)
    (hdigits : ∀ c ∈ digits, (hexNibble c).isSome = true) (rest : List Char) :
    loadDump (digits ++ rest) = .ok (digits.filterMap hexNibble) := by
  have hgood := dumpNibbles_of_good (fun c hc => isDumpCharacter_of_hexDigit (hdigits c hc)) 0
  apply loadDump_of_both
  · rwa [← hlen, List.take_left]
  · rwa [← hlen, uptoNonSpaces_length_append hdigits]

theorem loadDump_bad {good : List Char} {bad : Char} (hlen : good.length < memCells)
    (hgood : ∀ c ∈ good, Safety.isDumpCharacter c = true) (hbad : Safety.isDumpCharacter bad = false)
    (rest : List Char) : loadDump (good ++ bad :: rest) = .error (.badCharacter good.length) := by
  have hfails := fun rest => dumpNibbles_append_bad hgood hbad rest 0
  simp only [Nat.zero_add] at hfails
  apply loadDump_of_both
  · obtain ⟨left, hleft⟩ : ∃ left, memCells - good.length = left + 1 := ⟨memCells - good.length - 1, by omega⟩
    rw [List.take_append, List.take_of_length_le hlen.le, hleft, List.take_succ_cons]
    exact hfails _
  · obtain ⟨left, hleft, -, hupto⟩ := uptoNonSpaces_append good (bad :: rest) memCells hlen.le
    obtain ⟨left, rfl⟩ : ∃ n, left = n + 1 := ⟨left - 1, by omega⟩
    rw [hupto, uptoNonSpaces_cons_of_not_space (not_space_of_bad hbad)]
    exact hfails _

/-- Settles O10: on each of the three texts both readings of the limit agree. -/
theorem dumpLoadsItsDigits : Obligations.DumpLoadsItsDigits :=
  ⟨fun _ _ hlen htext hspaces => loadDump_append_spaces hlen htext hspaces,
   fun _ rest hlen hdigits => loadDump_full hlen hdigits rest,
   fun _ rest _ hlen hgood hbad => loadDump_bad hlen hgood hbad rest⟩

end Sys2Proof.Machine
end

section
/-! PROOFS. The ALU's arithmetic and negation (spec/40_alu.md R75 to R80, R84). -/

namespace Sys2Proof.Machine

/-! Each operator by its value; a shift to the right and a quotient by a nonzero divisor fit a nibble. -/

theorem aluSub_toNat (a b : Nibble) : ((aluSub a b).toNat : Int) = ((a.toNat : Int) - b.toNat) % 16 := by
  rw [aluSub, BitVec.toNat_ofInt]
  exact Int.toNat_of_nonneg (Int.emod_nonneg _ (by decide))

theorem aluDiv_of_ne_zero (a : Nibble) {b : Nibble} (hb : b ≠ 0#4) :
    ∃ q, alu .div a b = some q ∧ q.toNat = a.toNat / b.toNat := by
  have hlt : a.toNat / b.toNat < 16 := Nat.lt_of_le_of_lt (Nat.div_le_self _ _) a.isLt
  refine ⟨_, if_neg hb, ?_⟩
  rw [BitVec.toNat_ofNat]
  exact Nat.mod_eq_of_lt hlt

theorem aluRem_of_ne_zero (a : Nibble) {b : Nibble} (hb : b ≠ 0#4) :
    ∃ r, alu .rem a b = some r ∧ r.toNat = a.toNat % b.toNat := by
  have hlt : a.toNat % b.toNat < 16 := Nat.lt_of_le_of_lt (Nat.mod_le _ _) a.isLt
  refine ⟨_, if_neg hb, ?_⟩
  rw [BitVec.toNat_ofNat]
  exact Nat.mod_eq_of_lt hlt

theorem aluShr_toNat (a b : Nibble) : (aluShr a b).toNat = a.toNat / 2 ^ b.toNat := by
  have hlt : a.toNat / 2 ^ b.toNat < 16 := Nat.lt_of_le_of_lt (Nat.div_le_self _ _) a.isLt
  rw [aluShr, BitVec.toNat_ofNat]
  exact Nat.mod_eq_of_lt hlt

/-- The division law on nibbles, for the values DIV and REM give. -/
theorem aluDiv_aluRem (a : Nibble) {b : Nibble} (hb : b ≠ 0#4) :
    ∃ q r, alu .div a b = some q ∧ alu .rem a b = some r ∧
      q.toNat * b.toNat + r.toNat = a.toNat ∧ r.toNat < b.toNat := by
  obtain ⟨q, hq, hqv⟩ := aluDiv_of_ne_zero a hb
  obtain ⟨r, hr, hrv⟩ := aluRem_of_ne_zero a hb
  have hpos : 0 < b.toNat := Nat.pos_of_ne_zero fun h => hb (BitVec.eq_of_toNat_eq h)
  refine ⟨q, r, hq, hr, ?_, ?_⟩
  · rw [hqv, hrv]
    exact Nat.div_add_mod' _ _
  · rw [hrv]
    exact Nat.mod_lt _ hpos

theorem alu_zero_divisor (a : Nibble) : alu .div a 0#4 = none ∧ alu .rem a 0#4 = none := ⟨rfl, rfl⟩

/-- Settles O18: each operator's value by its own lemma. -/
theorem aluArithmetic : Obligations.AluArithmetic := by
  intro a b
  refine ⟨⟨aluSub a b, rfl, aluSub_toNat a b⟩, ⟨aluMul a b, rfl, BitVec.toNat_ofNat ..⟩, aluDiv_aluRem a, ?_,
    ⟨aluShl a b, rfl, BitVec.toNat_ofNat ..⟩, ⟨aluShr a b, rfl, aluShr_toNat a b⟩⟩
  rintro rfl
  exact alu_zero_divisor a

/-! Negation: `SUB(0, n)` is the ring's negation, so adding it back gives 0, with a carry unless `n` is 0. -/

theorem negate_toNat (n : Nibble) : (negate n).toNat = (16 - n.toNat) % 16 := by
  have h : ((negate n).toNat : Int) = ((0#4 : Nibble).toNat - n.toNat : Int) % 16 := aluSub_toNat 0#4 n
  have hzero : (0#4 : Nibble).toNat = 0 := rfl
  omega

theorem negate_eq (n : Nibble) : negate n = 0#4 - n := by
  apply BitVec.eq_of_toNat_eq
  rw [negate_toNat, BitVec.toNat_sub, BitVec.toNat_ofNat]
  omega

theorem addC_negate_sum (n : Nibble) : (addC n (negate n)).1 = 0#4 := by
  apply BitVec.eq_of_toNat_eq
  rw [addC_sum_toNat, negate_toNat, BitVec.toNat_ofNat]
  omega

theorem addC_negate_carry {n : Nibble} (hn : n ≠ 0#4) : (addC n (negate n)).2 = 1#4 := by
  have hpos : n.toNat ≠ 0 := fun h => hn (BitVec.eq_of_toNat_eq h)
  rw [addC_carry_eq_one_iff, negate_toNat]
  omega

/-- Settles O20: the value of the negation, and of its sum with the nibble negated. -/
theorem negationIsAdditiveInverse : Obligations.NegationIsAdditiveInverse := by
  intro n
  refine ⟨negate_toNat n, ?_, fun hn => Prod.ext (addC_negate_sum n) (addC_negate_carry hn), ?_⟩
  · rw [alu, aluAdd_eq_addC_sum, addC_negate_sum]
  · rintro rfl
    rfl

end Sys2Proof.Machine
end

section
/-! PROOFS. The bus, the stack primitives and the array's ports (spec/20_memory.md R28 to R32, R38). -/

namespace Sys2Proof.Machine

/-- Settles O13: a write by its fields, its cell by what an array reads after a write. -/
theorem busWrite : Obligations.BusWrite :=
  fun a v s => ⟨rfl, rfl, rfl, rfl, fun b => Memory.find_put s.mem a b v, rfl⟩

/-! The pops as whole states: each returns what the latch and the array give it, and moves the latch and `sp` alone. -/

@[simp] theorem addr_sub_one_sub_one (a : Addr) : a - 1#8 - 1#8 = a - 2#8 := by bv_omega

@[simp] theorem addr_sub_two_sub_one (a : Addr) : a - 2#8 - 1#8 = a - 3#8 := by bv_omega

theorem popNibble_eq (s : State) :
    popNibble s = (Safety.pop1 s, { s with latch := Safety.pop1 s, sp := s.sp - 1#8 }) :=
  popNibble_spec s

/-- The second pop in a row: an unwritten cell answers what the first pop left in the latch. -/
theorem popNibble_second (s : State) :
    popNibble { s with latch := Safety.pop1 s, sp := s.sp - 1#8 } =
      (Safety.pop2 s, { s with latch := Safety.pop2 s, sp := s.sp - 2#8 }) := by
  rw [popNibble_eq, addr_sub_one_sub_one]
  rfl

theorem popAddr_eq (s : State) :
    popAddr s =
      (combine (Safety.pop2 s) (Safety.pop1 s), { s with latch := Safety.pop2 s, sp := s.sp - 2#8 }) := by
  rw [popAddr, popNibble_eq s, popNibble_second]

theorem popNibble_third (s : State) :
    popNibble { s with latch := Safety.pop2 s, sp := s.sp - 2#8 } =
      (Safety.pop3 s, { s with latch := Safety.pop3 s, sp := s.sp - 3#8 }) := by
  rw [popNibble_eq, addr_sub_two_sub_one]
  rfl

/-! A pushed address: its low nibble is on top, its high nibble below. -/

theorem pop1_pushAddr (a : Addr) (s : State) : Safety.pop1 (pushAddr a s) = lo a := by
  apply busValue_written
  rw [pushAddr_mem, pushAddr_sp, Memory.find_put_same]

theorem addr_add_one_ne_self (a : Addr) : a + 1#8 ≠ a := by bv_omega

theorem pop2_pushAddr (a : Addr) (s : State) : Safety.pop2 (pushAddr a s) = hi a := by
  have hbelow : (pushAddr a s).sp - 1#8 = s.sp + 1#8 := by rw [pushAddr_sp, BitVec.add_sub_cancel]
  rw [Safety.pop2, hbelow, pushAddr_mem, Memory.find_put_other _ _ (addr_add_one_ne_self _).symm,
    Memory.find_put_same, Option.getD_some]

theorem popAddr_pushAddr (a : Addr) (s : State) :
    (popAddr (pushAddr a s)).1 = a ∧ (popAddr (pushAddr a s)).2.sp = s.sp := by
  rw [popAddr_eq, pop1_pushAddr, pop2_pushAddr]
  refine ⟨combine_hi_lo a, ?_⟩
  rw [pushAddr_sp]
  bv_omega

/-- Settles O14: a push as one write, the pops as whole states, and an address pushed and popped. -/
theorem stackPrimitives : Obligations.StackPrimitives :=
  ⟨fun _ _ => rfl, popNibble_eq, popAddr_eq, popAddr_pushAddr⟩

/-! The ports of the array (R38). -/

theorem arrayOut_rvalid_iff (m : Memory) (p : ArrayIn) :
    (arrayOut m p).rvalid = true ↔ ∃ v : Nibble, Memory.find m p.addr = some v := by
  simp [arrayOut, isOpen, Option.isSome_iff_exists]

theorem arrayOut_not_rvalid_iff (m : Memory) (p : ArrayIn) :
    (arrayOut m p).rvalid = false ↔ isOpen m p.addr = true := by
  simp [arrayOut]

theorem arrayServe_both {m : Memory} {p : ArrayIn} (hwe : p.we = true) (hre : p.re = true) : arrayServe m p = none := by
  simp [arrayServe, hwe, hre]

/-- Settles O15: the outputs by the cell; a read and a write as the two bus operations; both together refused. -/
theorem arrayPortsAgreeWithBus : Obligations.ArrayPortsAgreeWithBus :=
  ⟨fun m p => ⟨arrayOut_rvalid_iff m p, arrayOut_not_rvalid_iff m p, fun _ => Iff.rfl⟩,
   fun s a _ => ⟨rfl, memRead_spec a s⟩,
   fun _ _ _ => ⟨rfl, rfl⟩,
   fun _ _ => arrayServe_both⟩

end Sys2Proof.Machine
end

section
/-! PROOFS. The ripple (spec/43_arith.md R96, R99, R100): one step of it, how far a carry runs, that it ends within its
bound, what it leaves, and that it is exact addition. -/

namespace Sys2Proof.Machine

/-! `AddC` as the ripple uses it: the carry is 0 or 1, and a sum that carries is not 15. -/

theorem addC_sum_eq_add (a b : Nibble) : (addC a b).1 = a + b := by
  apply BitVec.eq_of_toNat_eq
  rw [addC_sum_toNat, BitVec.toNat_add]

theorem addC_carry_eq_zero_iff (a b : Nibble) : (addC a b).2 = 0#4 ↔ a.toNat + b.toNat < 16 := by
  rw [← BitVec.toNat_inj, addC_carry_toNat, BitVec.toNat_ofNat]
  omega

theorem addC_sum_ne_fifteen {a b : Nibble} (h : 16 ≤ a.toNat + b.toNat) : (addC a b).1 ≠ 15#4 := by
  intro h15
  have hle := addC_sum_le_of_carry ((addC_carry_eq_one_iff a b).2 h)
  rw [h15] at hle
  exact absurd hle (by decide)

/-! Addresses below one another. -/

@[simp] theorem addr_sub_ofNat_zero (a : Addr) : a - BitVec.ofNat 8 0 = a := BitVec.sub_zero a

theorem addr_sub_one_sub_ofNat (a : Addr) (j : Nat) : a - 1#8 - BitVec.ofNat 8 j = a - BitVec.ofNat 8 (j + 1) := by
  bv_omega

theorem addr_sub_ofNat_succ_ne (a : Addr) {j : Nat} (hj : j < 255) : a - BitVec.ofNat 8 (j + 1) ≠ a := by
  bv_omega

theorem addr_sub_one_sub_255 (a : Addr) : a - 1#8 - BitVec.ofNat 8 255 = a := by
  bv_omega

theorem addr_distance_succ {a b : Addr} (hb : b ≠ a) (k : Nat) :
    (a - 1#8 - b).toNat < k ↔ (a - b).toNat < k + 1 := by
  bv_omega

theorem addr_distance_self (a : Addr) : (a - 1#8 - a).toNat = 255 := by
  bv_omega

/-! One step (R96): the ripple is over where its step does not carry, and else goes on below with a carry of 1. -/

theorem ripple_succ_of_no_carry {a : Addr} {c : Nibble} {s : State} (h : (busValue s a).toNat + c.toNat < 16)
    (n : Nat) : ripple (n + 1) a c s = some (rippleStep a c s).2 := by
  simp [ripple, (addC_carry_eq_zero_iff _ _).2 h]

theorem ripple_succ_of_carry {a : Addr} {c : Nibble} {s : State} (h : 16 ≤ (busValue s a).toNat + c.toNat) (n : Nat) :
    ripple (n + 1) a c s = ripple n (a - 1#8) 1#4 (rippleStep a c s).2 := by
  simp [ripple, (addC_carry_eq_one_iff _ _).2 h]

/-- What a ripple that is over can have done first. -/
theorem ripple_succ_inv {n : Nat} {a : Addr} {c : Nibble} {s t : State} (h : ripple (n + 1) a c s = some t) :
    ((busValue s a).toNat + c.toNat < 16 ∧ t = (rippleStep a c s).2) ∨
    (16 ≤ (busValue s a).toNat + c.toNat ∧ ripple n (a - 1#8) 1#4 (rippleStep a c s).2 = some t) := by
  obtain hlt | hle := Nat.lt_or_ge ((busValue s a).toNat + c.toNat) 16
  · rw [ripple_succ_of_no_carry hlt] at h
    exact .inl ⟨hlt, (Option.some.inj h).symm⟩
  · rw [ripple_succ_of_carry hle] at h
    exact .inr ⟨hle, h⟩

theorem find_rippleStep_same (a : Addr) (c : Nibble) (s : State) :
    Memory.find (rippleStep a c s).2.mem a = some (addC (busValue s a) c).1 := by
  rw [rippleStep_mem, Memory.find_put_same]

theorem find_rippleStep_other {a b : Addr} (h : b ≠ a) (c : Nibble) (s : State) :
    Memory.find (rippleStep a c s).2.mem b = Memory.find s.mem b := by
  rw [rippleStep_mem, Memory.find_put_other _ _ h]

theorem busValue_add_one_lt {s : State} {a : Addr} (hlatch : s.latch ≠ 15#4) (hcell : Memory.find s.mem a ≠ some 15#4) :
    (busValue s a).toNat + (1#4 : Nibble).toNat < 16 := by
  have hne : busValue s a ≠ 15#4 := by
    cases hfind : Memory.find s.mem a with
    | none => rwa [busValue_unwritten hfind]
    | some v =>
      rw [busValue_written hfind]
      rintro rfl
      exact hcell hfind
  have hlt := (busValue s a).isLt
  have h15 : (busValue s a).toNat ≠ 15 := fun h => hne (BitVec.eq_of_toNat_eq h)
  have hone : (1#4 : Nibble).toNat = 1 := rfl
  omega

/-! A carry of 1 runs through the cells that hold 15, leaving 0 there, to the first cell that does not (R99). -/

/-- What a carry of 1 that came in at `a` leaves of state `s`, having run through `k` cells that held 15. -/
def CarriedThrough (a : Addr) (k : Nat) (s t : State) : Prop :=
  t.latch = (Memory.find s.mem (a - BitVec.ofNat 8 k)).getD (if k = 0 then s.latch else 0#4) + 1#4 ∧
  ∀ b : Addr, Memory.find t.mem b =
    if b = a - BitVec.ofNat 8 k then some t.latch
    else if (a - b).toNat < k then some 0#4
    else Memory.find s.mem b

theorem carriedThrough_zero (a : Addr) (s : State) : CarriedThrough a 0 s (rippleStep a 1#4 s).2 := by
  refine ⟨?_, fun b => ?_⟩
  · rw [rippleStep_latch, addC_sum_eq_add, busValue, if_pos rfl, addr_sub_ofNat_zero]
  · rw [rippleStep_mem, rippleStep_latch, Memory.find_put, addr_sub_ofNat_zero, if_neg (Nat.not_lt_zero _)]

/-- A step through a cell holding 15 leaves 0 there and in the latch, and the carry runs on below. -/
theorem carriedThrough_succ {a : Addr} {k : Nat} {s t : State} (hk : k < 255)
    (hfifteen : Memory.find s.mem a = some 15#4) (h : CarriedThrough (a - 1#8) k (rippleStep a 1#4 s).2 t) : CarriedThrough a (k + 1) s t := by
  obtain ⟨hlatch, hmem⟩ := h
  have hstop : a - BitVec.ofNat 8 (k + 1) ≠ a := addr_sub_ofNat_succ_ne a hk
  have hsum : (addC (busValue s a) 1#4).1 = 0#4 := by rw [busValue_written hfifteen]; rfl
  refine ⟨?_, fun b => ?_⟩
  · simpa [addr_sub_one_sub_ofNat, Memory.find_put_other _ _ hstop, hsum] using hlatch
  · rw [hmem b, addr_sub_one_sub_ofNat]
    by_cases hb : b = a
    · subst hb
      have hfar : ¬ (b - 1#8 - b).toNat < k := by rw [addr_distance_self]; omega
      rw [if_neg hstop.symm, if_neg hstop.symm, if_neg hfar, find_rippleStep_same, hsum]
      simp
    · rw [find_rippleStep_other hb]
      simp only [addr_distance_succ hb]

theorem ripple_through_fifteens {k : Nat} (hk : k ≤ 255) {a : Addr} {s : State} (hlatch : s.latch ≠ 15#4)
    (hfifteens : ∀ j < k, Memory.find s.mem (a - BitVec.ofNat 8 j) = some 15#4)
    (hstop : Memory.find s.mem (a - BitVec.ofNat 8 k) ≠ some 15#4) :
    ∃ t, ripple (k + 1) a 1#4 s = some t ∧ CarriedThrough a k s t := by
  induction k generalizing a s with
  | zero =>
    rw [addr_sub_ofNat_zero] at hstop
    exact ⟨_, ripple_succ_of_no_carry (busValue_add_one_lt hlatch hstop) 0, carriedThrough_zero a s⟩
  | succ k ih =>
    have hfirst : Memory.find s.mem a = some 15#4 := by simpa using hfifteens 0 (Nat.succ_pos k)
    have hother : ∀ j ≤ k, Memory.find (rippleStep a 1#4 s).2.mem (a - 1#8 - BitVec.ofNat 8 j) =
        Memory.find s.mem (a - BitVec.ofNat 8 (j + 1)) := fun j hj => by
      rw [addr_sub_one_sub_ofNat, find_rippleStep_other (addr_sub_ofNat_succ_ne a (by omega))]
    have hbus : busValue s a = 15#4 := busValue_written hfirst
    obtain ⟨t, ht, hthrough⟩ := ih (by omega) (a := a - 1#8) (s := (rippleStep a 1#4 s).2)
      (by rw [rippleStep_latch, hbus]; decide)
      (fun j hj => by rw [hother j hj.le]; exact hfifteens (j + 1) (by omega))
      (by rw [hother k le_rfl]; exact hstop)
    refine ⟨t, ?_, carriedThrough_succ (by omega) hfirst hthrough⟩
    rw [ripple_succ_of_carry (by rw [hbus]; decide), ht]

/-! The whole ripple: its first step either does not carry, or sends a carry of 1 into the ring below. -/

theorem ripple_bound_of_carry {a : Addr} {c : Nibble} {s : State} (hcarry : 16 ≤ (busValue s a).toNat + c.toNat)
    {k : Nat} (hk : k ≤ 255)
    (hfifteens : ∀ j < k, Memory.find (rippleStep a c s).2.mem (a - 1#8 - BitVec.ofNat 8 j) = some 15#4)
    (hstop : Memory.find (rippleStep a c s).2.mem (a - 1#8 - BitVec.ofNat 8 k) ≠ some 15#4) :
    ∃ t, ripple rippleBound a c s = some t ∧ CarriedThrough (a - 1#8) k (rippleStep a c s).2 t := by
  have hlatch : (rippleStep a c s).2.latch ≠ 15#4 := by
    rw [rippleStep_latch]
    exact addC_sum_ne_fifteen hcarry
  obtain ⟨t, ht, hthrough⟩ := ripple_through_fifteens hk hlatch hfifteens hstop
  refine ⟨t, ?_, hthrough⟩
  have hfuel : rippleBound = (k + 1 + (255 - k)) + 1 := by rw [rippleBound]; omega
  rw [hfuel, ripple_succ_of_carry hcarry]
  exact ripple_more_fuel ht _

/-- The first cell of a ripple whose first step carries stops the carry, should it come all round the ring. -/
theorem find_all_round_ne_fifteen {a : Addr} {c : Nibble} {s : State} (hcarry : 16 ≤ (busValue s a).toNat + c.toNat) :
    Memory.find (rippleStep a c s).2.mem (a - 1#8 - BitVec.ofNat 8 255) ≠ some 15#4 := by
  rw [addr_sub_one_sub_255, find_rippleStep_same]
  exact fun h => addC_sum_ne_fifteen hcarry (Option.some.inj h)

theorem ripple_ends (a : Addr) (c : Nibble) (s : State) : ∃ t, ripple rippleBound a c s = some t := by
  obtain hlt | hcarry := Nat.lt_or_ge ((busValue s a).toNat + c.toNat) 16
  · exact ⟨_, ripple_succ_of_no_carry hlt 256⟩
  · have hround := find_all_round_ne_fifteen hcarry
    have hstops : ∃ k, Memory.find (rippleStep a c s).2.mem (a - 1#8 - BitVec.ofNat 8 k) ≠ some 15#4 := ⟨255, hround⟩
    obtain ⟨t, ht, -⟩ := ripple_bound_of_carry hcarry (Nat.find_min' hstops hround)
      (fun j hj => not_not.1 (Nat.find_min hstops hj)) (Nat.find_spec hstops)
    exact ⟨t, ht⟩

/-- Settles O41: the carry stops at the latest where it comes back to the first cell. -/
theorem rippleEndsWithinBound : Obligations.RippleEndsWithinBound := ripple_ends

/-! What the ripple leaves, in the three cases of `Safety.Rippled`. -/

theorem find_of_carriedThrough {a : Addr} {c : Nibble} {k : Nat} {s t : State} (hk : k < 255)
    (h : CarriedThrough (a - 1#8) k (rippleStep a c s).2 t) (b : Addr) :
    Memory.find t.mem b =
      if b = a then some (busValue s a + c)
      else if b = a - BitVec.ofNat 8 (k + 1) then some t.latch
      else if (a - b).toNat ≤ k then some 0#4
      else Memory.find s.mem b := by
  rw [h.2 b, addr_sub_one_sub_ofNat]
  by_cases hb : b = a
  · subst hb
    have hfar : ¬ (b - 1#8 - b).toNat < k := by rw [addr_distance_self]; omega
    rw [if_neg (addr_sub_ofNat_succ_ne b hk).symm, if_neg hfar, if_pos rfl, find_rippleStep_same, addC_sum_eq_add]
  · rw [if_neg hb, find_rippleStep_other hb]
    simp only [addr_distance_succ hb, Nat.lt_succ_iff]

theorem latch_of_carriedThrough {a : Addr} {c : Nibble} {k : Nat} {s t : State} (hk : k < 255)
    (h : CarriedThrough (a - 1#8) k (rippleStep a c s).2 t) :
    t.latch =
      (Memory.find s.mem (a - BitVec.ofNat 8 (k + 1))).getD (if k = 0 then busValue s a + c else 0#4) + 1#4 := by
  rw [h.1, addr_sub_one_sub_ofNat, find_rippleStep_other (addr_sub_ofNat_succ_ne a hk), rippleStep_latch,
    addC_sum_eq_add]

/-- A carry that came all round the ring adds 1 to the first cell and leaves 0 in every other. -/
theorem carriedThrough_all_round {a : Addr} {c : Nibble} {s t : State}
    (h : CarriedThrough (a - 1#8) 255 (rippleStep a c s).2 t) :
    t.latch = busValue s a + c + 1#4 ∧
    ∀ b : Addr, Memory.find t.mem b = if b = a then some (busValue s a + c + 1#4) else some 0#4 := by
  obtain ⟨hlatch, hmem⟩ := h
  rw [addr_sub_one_sub_255, find_rippleStep_same, Option.getD_some, addC_sum_eq_add] at hlatch
  refine ⟨hlatch, fun b => ?_⟩
  rw [hmem b, addr_sub_one_sub_255, hlatch]
  by_cases hb : b = a
  · rw [if_pos hb, if_pos hb]
  · have hnear : (a - 1#8 - b).toNat < 255 := by rw [addr_distance_succ hb]; exact (a - b).isLt
    rw [if_neg hb, if_neg hb, if_pos hnear]

theorem ripple_rippled {a : Addr} {c : Nibble} {s t : State} (h : ripple rippleBound a c s = some t) :
    Safety.Rippled a (busValue s a) c s.mem t.mem t.latch := by
  refine ⟨fun hlt => ?_, fun hcarry k hk hfifteens hstop => ?_, fun hcarry hall => ?_⟩
  · obtain rfl : (rippleStep a c s).2 = t := Option.some.inj ((ripple_succ_of_no_carry hlt 256).symm.trans h)
    rw [rippleStep_latch, rippleStep_mem, addC_sum_eq_add]
    exact ⟨rfl, fun b => Memory.find_put s.mem a b _⟩
  · have hother : ∀ j ≤ k, Memory.find (rippleStep a c s).2.mem (a - 1#8 - BitVec.ofNat 8 j) =
        Memory.find s.mem (a - BitVec.ofNat 8 (j + 1)) := fun j hj => by
      rw [addr_sub_one_sub_ofNat, find_rippleStep_other (addr_sub_ofNat_succ_ne a (by omega))]
    obtain ⟨t', ht', hthrough⟩ := ripple_bound_of_carry hcarry hk.le
      (fun j hj => (hother j hj.le).trans (hfifteens j hj)) (by rwa [hother k le_rfl])
    obtain rfl : t' = t := Option.some.inj (ht'.symm.trans h)
    exact ⟨latch_of_carriedThrough hk hthrough, find_of_carriedThrough hk hthrough⟩
  · obtain ⟨t', ht', hthrough⟩ := ripple_bound_of_carry hcarry le_rfl
      (fun j hj => by
        have hne : a - BitVec.ofNat 8 (j + 1) ≠ a := addr_sub_ofNat_succ_ne a hj
        rw [addr_sub_one_sub_ofNat, find_rippleStep_other hne, hall _ hne])
      (find_all_round_ne_fifteen hcarry)
    obtain rfl : t' = t := Option.some.inj (ht'.symm.trans h)
    exact carriedThrough_all_round hthrough

/-! Exact addition (R100): a ripple of at most 256 steps visits each of its cells once. -/

/-- A ripple changes no cell it does not visit. -/
theorem ripple_frame {n : Nat} {a b : Addr} {c : Nibble} {s t : State} (h : ripple n a c s = some t)
    (hb : ∀ j < n, b ≠ a - BitVec.ofNat 8 j) : Memory.find t.mem b = Memory.find s.mem b := by
  induction n generalizing a c s with
  | zero => simp [ripple] at h
  | succ n ih =>
    have hba : b ≠ a := by simpa using hb 0 (Nat.succ_pos n)
    obtain ⟨-, rfl⟩ | ⟨-, hrest⟩ := ripple_succ_inv h
    · exact find_rippleStep_other hba c s
    · rw [ih hrest fun j hj => by rw [addr_sub_one_sub_ofNat]; exact hb (j + 1) (by omega)]
      exact find_rippleStep_other hba c s

theorem cellsDown_congr {m m' : Memory} {n : Nat} {a : Addr}
    (h : ∀ j < n, Memory.find m (a - BitVec.ofNat 8 j) = Memory.find m' (a - BitVec.ofNat 8 j)) :
    Safety.cellsDown m n a = Safety.cellsDown m' n a := by
  induction n generalizing a with
  | zero => rfl
  | succ n ih =>
    have hfirst : Memory.find m a = Memory.find m' a := by simpa using h 0 (Nat.succ_pos n)
    rw [Safety.cellsDown, Safety.cellsDown, hfirst,
      ih fun j hj => by rw [addr_sub_one_sub_ofNat]; exact h (j + 1) (by omega)]

theorem rippleOperands_succ_of_no_carry {a : Addr} {c : Nibble} {s : State}
    (h : (busValue s a).toNat + c.toNat < 16) (n : Nat) : Safety.rippleOperands (n + 1) a c s = [busValue s a] := by
  simp [Safety.rippleOperands, (addC_carry_eq_zero_iff _ _).2 h]

theorem rippleOperands_succ_of_carry {a : Addr} {c : Nibble} {s : State}
    (h : 16 ≤ (busValue s a).toNat + c.toNat) (n : Nat) :
    Safety.rippleOperands (n + 1) a c s =
      busValue s a :: Safety.rippleOperands n (a - 1#8) 1#4 (rippleStep a c s).2 := by
  simp [Safety.rippleOperands, (addC_carry_eq_one_iff _ _).2 h]

/-- A ripple that needs exactly `m + 1` steps: its one step does not carry, or it carries and needs `m` more below. -/
theorem ripple_exact_cases {m : Nat} {a : Addr} {c : Nibble} {s t : State} (hnone : ripple m a c s = none)
    (hsome : ripple (m + 1) a c s = some t) :
    (m = 0 ∧ (busValue s a).toNat + c.toNat < 16 ∧ t = (rippleStep a c s).2) ∨
    ∃ n, m = n + 1 ∧ 16 ≤ (busValue s a).toNat + c.toNat ∧
      ripple n (a - 1#8) 1#4 (rippleStep a c s).2 = none ∧
      ripple (n + 1) (a - 1#8) 1#4 (rippleStep a c s).2 = some t := by
  obtain ⟨hlt, rfl⟩ | ⟨hcarry, hrest⟩ := ripple_succ_inv hsome
  · cases m with
    | zero => exact .inl ⟨rfl, hlt, rfl⟩
    | succ n => simp [ripple_succ_of_no_carry hlt] at hnone
  · cases m with
    | zero => simp [ripple] at hrest
    | succ n =>
      rw [ripple_succ_of_carry hcarry] at hnone
      exact .inr ⟨n, rfl, hcarry, hnone, hrest⟩

theorem ripple_adds_exactly {m : Nat} {a : Addr} {c : Nibble} {s t : State} (hm : m < 256)
    (hnone : ripple m a c s = none) (hsome : ripple (m + 1) a c s = some t) :
    ∃ sums : List Nibble, Safety.cellsDown t.mem (m + 1) a = sums.map some ∧
      (Safety.rippleOperands (m + 1) a c s).length = m + 1 ∧
      Safety.valueOf sums = Safety.valueOf (Safety.rippleOperands (m + 1) a c s) + c.toNat := by
  induction m generalizing a c s with
  | zero =>
    obtain ⟨-, hlt, rfl⟩ | ⟨n, hn, -⟩ := ripple_exact_cases hnone hsome
    · refine ⟨[(addC (busValue s a) c).1], ?_, ?_, ?_⟩
      · simp [Safety.cellsDown]
      · rw [rippleOperands_succ_of_no_carry hlt]; rfl
      · rw [rippleOperands_succ_of_no_carry hlt]
        simp only [Safety.valueOf, addC_sum_toNat]
        omega
    · omega
  | succ m ih =>
    obtain ⟨hzero, -⟩ | ⟨n, hn, hcarry, hnone', hsome'⟩ := ripple_exact_cases hnone hsome
    · omega
    obtain rfl : m = n := by omega
    obtain ⟨sums, hcells, hlen, hvalue⟩ := ih (by omega) hnone' hsome'
    have hfirst : Memory.find t.mem a = some (addC (busValue s a) c).1 := by
      rw [ripple_frame hsome' fun j hj => ?_, find_rippleStep_same]
      rw [addr_sub_one_sub_ofNat]
      exact (addr_sub_ofNat_succ_ne a (by omega)).symm
    refine ⟨(addC (busValue s a) c).1 :: sums, ?_, ?_, ?_⟩
    · rw [Safety.cellsDown, hfirst, hcells, List.map_cons]
    · rw [rippleOperands_succ_of_carry hcarry, List.length_cons, hlen]
    · have hone : (1#4 : Nibble).toNat = 1 := rfl
      have hoperand := (busValue s a).isLt
      have hc := c.isLt
      rw [rippleOperands_succ_of_carry hcarry]
      simp only [Safety.valueOf, addC_sum_toNat, hvalue]
      omega

theorem rippleOperands_of_written {m : Nat} {a : Addr} {c : Nibble} {s t : State} (hm : m < 256)
    (hnone : ripple m a c s = none) (hsome : ripple (m + 1) a c s = some t) {cells : List Nibble}
    (hcells : Safety.cellsDown s.mem (m + 1) a = cells.map some) : Safety.rippleOperands (m + 1) a c s = cells := by
  induction m generalizing a c s cells with
  | zero =>
    obtain ⟨-, hlt, -⟩ | ⟨n, hn, -⟩ := ripple_exact_cases hnone hsome
    · obtain ⟨v, vs, rfl, hv, hvs⟩ := List.map_eq_cons_iff.1 hcells.symm
      obtain rfl : vs = [] := List.map_eq_nil_iff.1 hvs
      rw [rippleOperands_succ_of_no_carry hlt, busValue_written hv.symm]
    · omega
  | succ m ih =>
    obtain ⟨hzero, -⟩ | ⟨n, hn, hcarry, hnone', hsome'⟩ := ripple_exact_cases hnone hsome
    · omega
    obtain rfl : m = n := by omega
    obtain ⟨v, vs, rfl, hv, hvs⟩ := List.map_eq_cons_iff.1 hcells.symm
    have hbelow : Safety.cellsDown (rippleStep a c s).2.mem (m + 1) (a - 1#8) = vs.map some := by
      refine (cellsDown_congr fun j hj => ?_).trans hvs.symm
      rw [addr_sub_one_sub_ofNat, find_rippleStep_other (addr_sub_ofNat_succ_ne a (by omega))]
    rw [rippleOperands_succ_of_carry hcarry, ih (by omega) hnone' hsome' hbelow, busValue_written hv.symm]

/-- Settles O42: by induction on the steps, each sum and the carry it sends below being worth its operand and the carry
it received. -/
theorem rippleIsExactAddition : Obligations.RippleIsExactAddition :=
  fun _ _ _ _ _ hm hnone hsome =>
    ⟨ripple_adds_exactly hm hnone hsome, fun _ hcells => rippleOperands_of_written hm hnone hsome hcells⟩

end Sys2Proof.Machine
end

section
/-! PROOFS. Fetch (spec/41_cycle_nop_halt.md R87 to R90): which instruction a cycle executes, and in which state. -/

namespace Sys2Proof.Machine

/-- The immediate a fetched Push reads (R51, R94): by then the latch holds the opcode. -/
def fetchedImmediate (s : State) : Nibble := (Memory.find s.mem (s.ip + 1#8)).getD 1#4

theorem fetch_of_opcode {s : State} {i : Instr} (hpush : ∀ imm, i ≠ .push imm) (h : fetchedOpcode s = opcodeOf i) :
    fetch s = (i, s.setLatch (opcodeOf i)) := by
  have hone : opcodeOf i ≠ 1#4 := fun e => ((opcodeOf_eq_one_iff i).1 e).elim hpush
  rw [fetchedOpcode_eq] at h
  simp [fetch, memRead_spec, h, hone, decodeOpcode_opcodeOf hpush]

theorem fetch_of_push {s : State} (h : fetchedOpcode s = 1#4) :
    fetch s = (.push (fetchedImmediate s), s.setLatch (fetchedImmediate s)) := by
  rw [fetchedOpcode_eq] at h
  simp only [fetch, memRead_spec, h]
  rfl

/-- What fetch can do, told by the opcode. -/
theorem fetch_cases (s : State) :
    (fetchedOpcode s = 1#4 ∧ fetch s = (.push (fetchedImmediate s), s.setLatch (fetchedImmediate s))) ∨
    ∃ i, (∀ imm, i ≠ .push imm) ∧ fetchedOpcode s = opcodeOf i ∧ fetch s = (i, s.setLatch (opcodeOf i)) := by
  by_cases h : fetchedOpcode s = 1#4
  · exact .inl ⟨h, fetch_of_push h⟩
  · have hpush := decodeOpcode_not_push h 0#4
    have hop : fetchedOpcode s = opcodeOf (decodeOpcode (fetchedOpcode s) 0#4) := (opcodeOf_decodeOpcode _ _).symm
    exact .inr ⟨_, hpush, hop, fetch_of_opcode hpush hop⟩

theorem step_of_opcode {s : State} {i : Instr} (hrun : s.run = .running) (hpush : ∀ imm, i ≠ .push imm)
    (h : fetchedOpcode s = opcodeOf i) : step s = exec i (s.setLatch (opcodeOf i)) := by
  rw [step_running hrun, fetch_of_opcode hpush h]

theorem step_of_push {s : State} (hrun : s.run = .running) (h : fetchedOpcode s = 1#4) :
    step s = exec (.push (fetchedImmediate s)) (s.setLatch (fetchedImmediate s)) := by
  rw [step_running hrun, fetch_of_push h]

/-- Settles O21: the first of the two nibbles is the decoded instruction's opcode, the second a Push's immediate. -/
theorem stepRunsDecodedInstruction : Obligations.StepRunsDecodedInstruction := by
  intro s i rest hrun hdecode _
  obtain ⟨hop, hrest⟩ := List.cons.inj (eq_encode_append_of_decode hdecode)
  rw [← fetchedOpcode_eq] at hop hrest
  rw [← fetchedOpcode_eq]
  by_cases hpush : ∃ imm, i = .push imm
  · obtain ⟨imm, rfl⟩ := hpush
    have hone : fetchedOpcode s = 1#4 := hop
    rw [hone] at hrest
    obtain rfl : fetchedImmediate s = imm := (List.cons.inj hrest).1
    rw [step_of_push hrun hone, hone]
    rfl
  · have hnot : ∀ imm, i ≠ .push imm := fun imm e => hpush ⟨imm, e⟩
    have hlength : opcodeLength (opcodeOf i) ≠ 2 := by
      rw [Ne, opcodeLength_eq_two_iff, opcodeOf_eq_one_iff]
      exact hpush
    rw [step_of_opcode hrun hnot hop, if_neg hlength, hop]

end Sys2Proof.Machine
end

section
/-! PROOFS. What each instruction leaves (spec/41_cycle_nop_halt.md to spec/45_loadstore.md), as a whole state wherever
it has a closed form, and the states in which Add and Subtract begin their ripple. -/

namespace Sys2Proof.Machine

theorem exec_nop (s : State) : exec .nop s = .next { s with ip := s.ip + 1#8 } := rfl

theorem exec_halt (s : State) : exec .halt s = .next { s with run := .halted } := rfl

theorem exec_illegal {i : Instr} (hi : Safety.isIllegal i = true) (s : State) :
    exec i s = .next { s with run := .halted } := by
  cases i with
  | illegalA | illegalB | illegalC | illegalD | illegalE => rfl
  | _ => cases hi

theorem exec_push (imm : Nibble) (s : State) :
    exec (.push imm) s = .next { s with
      ip := s.ip + 2#8
      sp := s.sp + 1#8
      latch := imm
      mem := Memory.put s.mem (s.sp + 1#8) imm } := by
  have hip : s.ip + 1#8 + 1#8 = s.ip + 2#8 := by bv_omega
  rw [← hip]
  rfl

theorem exec_pop (s : State) :
    exec .pop s = .next { s with ip := s.ip + 1#8, sp := s.sp - 1#8, latch := Safety.pop1 s } := by
  simp only [exec, execPop, popNibble_eq]
  rfl

theorem exec_jumpNonZero (s : State) :
    exec .jumpNonZero s = .next { s with
      ip := if Safety.pop3 s = 0#4 then s.ip + 1#8 else combine (Safety.pop2 s) (Safety.pop1 s)
      sp := s.sp - 3#8
      latch := Safety.pop3 s } := by
  simp only [exec, execJumpNonZero, popAddr_eq, popNibble_third]
  split <;> rfl

theorem addr_sub_two_add_one (a : Addr) : a - 2#8 + 1#8 = a - 1#8 := by bv_omega

theorem exec_call (s : State) :
    exec .call s = .next { s with
      ip := combine (Safety.pop2 s) (Safety.pop1 s)
      latch := lo (s.ip + 1#8)
      mem := Memory.put (Memory.put s.mem (s.sp - 1#8) (hi (s.ip + 1#8))) s.sp (lo (s.ip + 1#8)) } := by
  simp only [exec, execCall, popAddr_eq]
  refine congrArg _ (State.eq_of_fields _ _ rfl ?_ rfl rfl ?_)
  · rw [pushAddr_sp, State.setIp_sp, addr_sub_two_add_one, BitVec.sub_add_cancel]
  · rw [pushAddr_mem, State.setIp_sp, State.setIp_mem, addr_sub_two_add_one, BitVec.sub_add_cancel]

theorem exec_ret (s : State) :
    exec .ret s = .next { s with
      ip := combine (Safety.pop2 s) (Safety.pop1 s), sp := s.sp - 2#8, latch := Safety.pop2 s } := by
  simp only [exec, execReturn, popAddr_eq]
  rfl

theorem loadAddress_eq (s : State) : loadAddress s = combine (Safety.pop2 s) (Safety.pop1 s) := by
  rw [loadAddress, popAddr_eq]

theorem storeAddress_eq (s : State) : storeAddress s = combine (Safety.pop2 s) (Safety.pop1 s) := by
  rw [storeAddress, popAddr_eq]

/-- The nibble a Load reads (R105): its two pops have left the high address nibble in the latch. -/
def loadedNibble (s : State) : Nibble := (Memory.find s.mem (loadAddress s)).getD (Safety.pop2 s)

theorem busValue_loadAddress (s : State) :
    busValue { s with latch := Safety.pop2 s, sp := s.sp - 2#8 } (loadAddress s) = loadedNibble s := rfl

theorem exec_load (s : State) :
    exec .load s = .next { s with
      ip := s.ip + 1#8
      sp := s.sp - 1#8
      latch := loadedNibble s
      mem := Memory.put s.mem (s.sp - 1#8) (loadedNibble s) } := by
  simp only [exec, execLoad, popAddr_eq]
  rw [← loadAddress_eq, memRead_spec, busValue_loadAddress, ← addr_sub_two_add_one]
  rfl

theorem exec_store (s : State) :
    exec .store s = .next { s with
      ip := s.ip + 1#8
      sp := s.sp - 3#8
      latch := Safety.pop3 s
      mem := Memory.put s.mem (storeAddress s) (Safety.pop3 s) } := by
  simp only [exec, execStore, popAddr_eq, popNibble_third, storeAddress_eq]
  rfl

/-- The state in which Add and Subtract begin their ripple: `ip` advanced and the addend popped (R97, R98). -/
def rippleStart (s : State) : State :=
  { s with ip := s.ip + 1#8, sp := s.sp - 1#8, latch := Safety.pop1 s }

theorem popNibble_advance (s : State) : popNibble (advance s) = (Safety.pop1 s, rippleStart s) := by
  rw [popNibble_eq]
  rfl

/-- The first operand of the ripple is what a second pop would return. -/
theorem busValue_rippleStart (s : State) : busValue (rippleStart s) (s.sp - 1#8) = Safety.pop2 s := rfl

theorem rippleAtTop_ends (c : Nibble) (s : State) :
    ∃ t, ripple rippleBound s.sp c s = some t ∧ rippleAtTop c s = .next t := by
  obtain ⟨t, ht⟩ := ripple_ends s.sp c s
  obtain h | ⟨hnone, -⟩ := rippleAtTop_cases c s
  · exact h
  · simp [ht] at hnone

theorem exec_add (s : State) :
    ∃ t, ripple rippleBound (s.sp - 1#8) (Safety.pop1 s) (rippleStart s) = some t ∧ exec .add s = .next t := by
  simp only [exec, execAdd, popNibble_advance]
  exact rippleAtTop_ends (Safety.pop1 s) (rippleStart s)

theorem exec_subtract (s : State) :
    ∃ t, ripple rippleBound (s.sp - 1#8) (negate (Safety.pop1 s)) (rippleStart s) = some t ∧
      exec .subtract s = .next t := by
  simp only [exec, execSubtract, popNibble_advance]
  exact rippleAtTop_ends (negate (Safety.pop1 s)) (rippleStart s)

theorem exec_next (i : Instr) (s : State) : ∃ t, exec i s = .next t := by
  cases i with
  | nop => exact ⟨_, exec_nop s⟩
  | push imm => exact ⟨_, exec_push imm s⟩
  | pop => exact ⟨_, exec_pop s⟩
  | add => exact (exec_add s).imp fun _ h => h.2
  | subtract => exact (exec_subtract s).imp fun _ h => h.2
  | jumpNonZero => exact ⟨_, exec_jumpNonZero s⟩
  | call => exact ⟨_, exec_call s⟩
  | ret => exact ⟨_, exec_ret s⟩
  | load => exact ⟨_, exec_load s⟩
  | store => exact ⟨_, exec_store s⟩
  | illegalA | illegalB | illegalC | illegalD | illegalE => exact ⟨_, exec_illegal rfl s⟩
  | halt => exact ⟨_, exec_halt s⟩

theorem step_next (s : State) : ∃ t, step s = .next t := by
  cases hrun : s.run with
  | halted => exact ⟨s, step_halted hrun⟩
  | running =>
    rw [step_running hrun]
    exact exec_next _ _

/-- Settles O40: every instruction answers a next state, Add and Subtract because their ripple ends within its bound. -/
theorem everyStepAnswersNext : Obligations.EveryStepAnswersNext := step_next

/-! Add and Subtract (R97, R98): the ripple from the new top. -/

/-- What a ripple of carry `c` from the new top leaves, for both instructions. -/
theorem rippleStart_rippled {c : Nibble} {s t : State}
    (h : ripple rippleBound (s.sp - 1#8) c (rippleStart s) = some t) :
    t.ip = s.ip + 1#8 ∧ t.sp = s.sp - 1#8 ∧ t.run = s.run ∧
    Safety.Rippled (s.sp - 1#8) (Safety.pop2 s) c s.mem t.mem t.latch := by
  obtain ⟨hip, hsp, hrun⟩ := ripple_registers h
  have hrippled := ripple_rippled h
  rw [busValue_rippleStart] at hrippled
  exact ⟨hip, hsp, hrun, hrippled⟩

/-- Settles O29: Add ripples the popped addend. -/
theorem addRipplesAddend : Obligations.AddRipplesAddend := by
  intro s
  obtain ⟨t, hripple, hexec⟩ := exec_add s
  exact ⟨t, hexec, rippleStart_rippled hripple⟩

theorem add_neg_eq_sub (a b : Nibble) : a + (0#4 - b) = a - b := by bv_omega

/-- A nonzero subtrahend's negation carries exactly where the subtraction needs no borrow. -/
theorem neg_carries_iff {a b : Nibble} (hb : b ≠ 0#4) : 16 ≤ a.toNat + (0#4 - b).toNat ↔ b.toNat ≤ a.toNat := by
  bv_omega

/-- Settles O30: Subtract ripples the negated subtrahend, whose sum is the difference. -/
theorem subtractRipplesNegation : Obligations.SubtractRipplesNegation := by
  intro s
  obtain ⟨t, hripple, hexec⟩ := exec_subtract s
  rw [negate_eq] at hripple
  obtain ⟨hip, hsp, hrun, hrippled⟩ := rippleStart_rippled hripple
  exact ⟨t, hexec, hip, hsp, hrun, hrippled, add_neg_eq_sub _ _, neg_carries_iff⟩

end Sys2Proof.Machine
end

section
/-! PROOFS. The accesses of a cycle (spec/20_memory.md R42): a CPU's uninterrupted accesses as a relation, tied to
`runAccesses`, and the accesses of each instruction. -/

namespace Sys2Proof.Machine

/-- A CPU in state `s`, waiting as `f` says and not interrupted, makes the accesses `tr`, and its cycle ends in
`t`. -/
inductive Completes : Flight → State → List Access → State → Prop
  | last {f : Flight} {s t : State} {q : BusRequest} (hq : request f s = some q)
      (hr : resume f (perform q s).2.1 (perform q s).2.2 = (.idle, t)) : Completes f s [(perform q s).1] t
  | more {f f' : Flight} {s s' t : State} {q : BusRequest} {tr : List Access} (hq : request f s = some q)
      (hr : resume f (perform q s).2.1 (perform q s).2.2 = (f', s')) (hf : f' ≠ .idle)
      (rest : Completes f' s' tr t) : Completes f s ((perform q s).1 :: tr) t

/-! Tied to the model: `runAccesses` gives exactly these accesses, or none for a CPU that asks for none. -/

theorem runAccesses_of_completes {f : Flight} {s t : State} {tr : List Access} (h : Completes f s tr t) {n : Nat}
    (hn : tr.length ≤ n) : runAccesses n f s = some (tr, t) := by
  induction h generalizing n with
  | last hq hr =>
    obtain ⟨m, rfl⟩ : ∃ m, n = m + 1 := Nat.exists_eq_succ_of_ne_zero (Nat.pos_iff_ne_zero.1 hn)
    simp [runAccesses_succ, hq, hr]
  | more hq hr hf _ ih =>
    obtain ⟨m, rfl⟩ : ∃ m, n = m + 1 := Nat.exists_eq_succ_of_ne_zero (by rw [List.length_cons] at hn; omega)
    rw [List.length_cons, Nat.add_le_add_iff_right] at hn
    simp [runAccesses_succ, hq, hr, hf, ih hn]

theorem completes_of_runAccesses {n : Nat} {f : Flight} {s t : State} {tr : List Access}
    (h : runAccesses n f s = some (tr, t)) :
    (request f s = none ∧ tr = [] ∧ t = s) ∨ (Completes f s tr t ∧ tr.length ≤ n) := by
  induction n generalizing f s tr with
  | zero => simp [runAccesses] at h
  | succ n ih =>
    rw [runAccesses_succ] at h
    cases hq : request f s with
    | none =>
      obtain ⟨rfl, rfl⟩ : [] = tr ∧ s = t := by simpa [hq] using h
      exact .inl ⟨rfl, rfl, rfl⟩
    | some q =>
      right
      rcases hr : resume f (perform q s).2.1 (perform q s).2.2 with ⟨f', s'⟩
      by_cases hf : f' = .idle
      · subst hf
        obtain ⟨rfl, rfl⟩ : [(perform q s).1] = tr ∧ s' = t := by simpa [hq, hr] using h
        exact ⟨.last hq hr, by simp⟩
      · cases hrest : runAccesses n f' s' with
        | none => simp [hq, hr, hf, hrest] at h
        | some r =>
          obtain ⟨rfl, rfl⟩ : (perform q s).1 :: r.1 = tr ∧ r.2 = t := by simpa [hq, hr, hf, hrest] using h
          obtain ⟨hnone, -⟩ | ⟨hcompletes, hlen⟩ := ih hrest
          · exact absurd hnone (request_in_flight hf s')
          · exact ⟨.more hq hr hf hcompletes, by rw [List.length_cons]; omega⟩

theorem cycleAccesses_of_completes {s t : State} {tr : List Access} (h : Completes .idle s tr t)
    (hlen : tr.length ≤ accessBound) : cycleAccesses s = some (tr, t) :=
  runAccesses_of_completes h hlen

/-! The rules with the access written out. -/

theorem Completes.read {f f' : Flight} {s s' t : State} {a : Addr} {tr : List Access}
    (hq : request f s = some (.read a)) (hr : resume f (busValue s a) (s.setLatch (busValue s a)) = (f', s'))
    (hf : f' ≠ .idle) (rest : Completes f' s' tr t) : Completes f s (.read a (busValue s a) :: tr) t := by
  have h := Completes.more (q := .read a) hq (by rw [perform_read]; exact hr) hf rest
  rwa [perform_read] at h

theorem Completes.readLast {f : Flight} {s t : State} {a : Addr} (hq : request f s = some (.read a))
    (hr : resume f (busValue s a) (s.setLatch (busValue s a)) = (.idle, t)) :
    Completes f s [.read a (busValue s a)] t := by
  have h := Completes.last (q := .read a) hq (by rw [perform_read]; exact hr)
  rwa [perform_read] at h

theorem Completes.write {f f' : Flight} {s s' t : State} {a : Addr} {v : Nibble} {tr : List Access}
    (hq : request f s = some (.write a v)) (hr : resume f v (memWrite a v s) = (f', s')) (hf : f' ≠ .idle)
    (rest : Completes f' s' tr t) : Completes f s (.write a v :: tr) t :=
  .more (q := .write a v) hq hr hf rest

theorem Completes.writeLast {f : Flight} {s t : State} {a : Addr} {v : Nibble}
    (hq : request f s = some (.write a v)) (hr : resume f v (memWrite a v s) = (.idle, t)) :
    Completes f s [.write a v] t :=
  .last (q := .write a v) hq hr

/-! The fetch: a CPU that is running reads its opcode and begins what it selects. -/

theorem request_idle_running {s : State} (hrun : s.run = .running) : request .idle s = some (.read s.ip) := by
  simp [request, hrun]

theorem completes_fetch {f : Flight} {s s' t : State} {op : Nibble} {tr : List Access} (hrun : s.run = .running)
    (hop : fetchedOpcode s = op) (hbegin : beginInstr (decodeOpcode op 0#4) (s.setLatch op) = (f, s'))
    (hf : f ≠ .idle) (rest : Completes f s' tr t) : Completes .idle s (.read s.ip op :: tr) t := by
  rw [fetchedOpcode_eq] at hop
  subst hop
  exact .read (request_idle_running hrun) hbegin hf rest

theorem completes_fetch_last {s t : State} {op : Nibble} (hrun : s.run = .running) (hop : fetchedOpcode s = op)
    (hbegin : beginInstr (decodeOpcode op 0#4) (s.setLatch op) = (.idle, t)) :
    Completes .idle s [.read s.ip op] t := by
  rw [fetchedOpcode_eq] at hop
  subst hop
  exact .readLast (request_idle_running hrun) hbegin

/-- Only Add and Subtract come near the bound: the others make at most five accesses. -/
theorem le_accessBound {n : Nat} (h : n ≤ 5) : n ≤ accessBound := by
  rw [accessBound, rippleBound]
  omega

/-- An instruction whose fetch is its only access. -/
theorem runsInOneCycle_of_begin {i : Instr} (hpush : ∀ imm, i ≠ .push imm)
    (h : ∀ s, ∃ t, exec i s = .next t ∧ beginInstr i s = (.idle, t)) : Safety.RunsInOneCycle i (fun _ => []) := by
  intro s hrun hop
  obtain ⟨t, hexec, hbegin⟩ := h (s.setLatch (opcodeOf i))
  refine ⟨t, hexec, (step_of_opcode hrun hpush hop).trans hexec, ?_⟩
  refine cycleAccesses_of_completes ?_ (le_accessBound (by simp))
  exact completes_fetch_last hrun hop (by rw [decodeOpcode_opcodeOf hpush, hbegin])

/-- An instruction that goes on after its fetch, with few accesses. -/
theorem runsInOneCycle_of_completes {i : Instr} (hpush : ∀ imm, i ≠ .push imm) {f : Flight} (hf : f ≠ .idle)
    {rest : State → List Access} (hlen : ∀ s, (rest s).length ≤ 4)
    (h : ∀ s, ∃ s' t, beginInstr i s = (f, s') ∧ exec i s = .next t ∧ Completes f s' (rest s) t) :
    Safety.RunsInOneCycle i rest := by
  intro s hrun hop
  obtain ⟨s', t, hbegin, hexec, hcompletes⟩ := h (s.setLatch (opcodeOf i))
  refine ⟨t, hexec, (step_of_opcode hrun hpush hop).trans hexec, ?_⟩
  refine cycleAccesses_of_completes ?_ (le_accessBound (Nat.succ_le_succ (hlen _)))
  exact completes_fetch hrun hop (by rw [decodeOpcode_opcodeOf hpush, hbegin]) hf hcompletes

/-! Nop, Halt and the illegal opcodes make no access but the fetch. -/

theorem runsInOneCycle_nop : Safety.RunsInOneCycle .nop (fun _ => []) :=
  runsInOneCycle_of_begin nofun fun s => ⟨_, exec_nop s, rfl⟩

theorem runsInOneCycle_halt : Safety.RunsInOneCycle .halt (fun _ => []) :=
  runsInOneCycle_of_begin nofun fun s => ⟨_, exec_halt s, rfl⟩

theorem beginInstr_illegal {i : Instr} (hi : Safety.isIllegal i = true) (s : State) :
    beginInstr i s = (.idle, { s with run := .halted }) := by
  cases i with
  | illegalA | illegalB | illegalC | illegalD | illegalE => rfl
  | _ => cases hi

theorem runsInOneCycle_illegal {i : Instr} (hi : Safety.isIllegal i = true) :
    Safety.RunsInOneCycle i (fun _ => []) :=
  runsInOneCycle_of_begin (by rintro imm rfl; cases hi) fun s => ⟨_, exec_illegal hi s, beginInstr_illegal hi s⟩

/-- Settles O24: Nop's meaning, and its cycle. -/
theorem nopAdvances : Obligations.NopAdvances := ⟨exec_nop, runsInOneCycle_nop⟩

/-- Settles O25: Halt's meaning, and its cycle. -/
theorem haltStops : Obligations.HaltStops := ⟨exec_halt, runsInOneCycle_halt⟩

/-- Settles O26: the meaning of the five, and their cycle. -/
theorem illegalOpcodesHaltSilently : Obligations.IllegalOpcodesHaltSilently :=
  fun _ hi => ⟨exec_illegal hi, runsInOneCycle_illegal hi⟩

/-! Push and Pop. -/

theorem step_and_accesses_of_push {s : State} (hrun : s.run = .running) (hop : fetchedOpcode s = 1#4) :
    ∃ t, step s = .next t ∧ exec (.push (fetchedImmediate s)) s = .next t ∧
      cycleAccesses s = some ([.read s.ip 1#4, .read (s.ip + 1#8) (fetchedImmediate s),
        .write (s.sp + 1#8) (fetchedImmediate s)], t) := by
  have hexec := exec_push (fetchedImmediate s) s
  refine ⟨_, ?_, hexec, cycleAccesses_of_completes ?_ (le_accessBound (by simp))⟩
  · rw [step_of_push hrun hop, exec_push]
    rfl
  · rw [← Host.Outcome.next.inj hexec]
    exact completes_fetch hrun hop rfl nofun (.read rfl rfl nofun (.writeLast rfl rfl))

/-- Settles O27: Push's meaning, and its cycle of three accesses. -/
theorem pushWritesImmediate : Obligations.PushWritesImmediate :=
  ⟨fun imm s => ⟨_, exec_push imm s, rfl, rfl, rfl, rfl, fun b => Memory.find_put s.mem _ b imm⟩,
   fun _ hrun hop => step_and_accesses_of_push hrun hop⟩

theorem runsInOneCycle_pop : Safety.RunsInOneCycle .pop (fun s => [.read s.sp (Safety.pop1 s)]) :=
  runsInOneCycle_of_completes (i := .pop) (f := .popRead) nofun nofun (fun _ => by simp) fun s =>
    ⟨_, _, rfl, exec_pop s, .readLast rfl rfl⟩

/-- Settles O28: Pop's meaning, and its cycle. -/
theorem popDiscardsTop : Obligations.PopDiscardsTop := ⟨exec_pop, runsInOneCycle_pop⟩

/-! The instructions that pop an address: `sp` after the second and the third pop. -/

theorem spDown_second (s : State) :
    spDown { s with latch := Safety.pop2 s, sp := s.sp - 1#8 } =
      { s with latch := Safety.pop2 s, sp := s.sp - 2#8 } := by
  simp [spDown, State.setSp]

theorem spDown_third (s : State) :
    spDown { s with latch := Safety.pop3 s, sp := s.sp - 2#8 } =
      { s with latch := Safety.pop3 s, sp := s.sp - 3#8 } := by
  simp [spDown, State.setSp]

/-- An address popped and then more: `fHi` waits for the second pop, the state before it being that after the first. -/
theorem Completes.popAddr {f fHi f' : Flight} {s s' t : State} {tr : List Access}
    (hq : request f s = some (.read s.sp))
    (hr : resume f (Safety.pop1 s) (s.setLatch (Safety.pop1 s)) =
      (fHi, { s with latch := Safety.pop1 s, sp := s.sp - 1#8 }))
    (hfHi : fHi ≠ .idle)
    (hqHi : request fHi { s with latch := Safety.pop1 s, sp := s.sp - 1#8 } = some (.read (s.sp - 1#8)))
    (hrHi : resume fHi (Safety.pop2 s) { s with latch := Safety.pop2 s, sp := s.sp - 1#8 } = (f', s'))
    (hf : f' ≠ .idle) (rest : Completes f' s' tr t) :
    Completes f s (.read s.sp (Safety.pop1 s) :: .read (s.sp - 1#8) (Safety.pop2 s) :: tr) t :=
  .read hq hr hfHi (.read hqHi hrHi hf rest)

theorem completes_ret (s : State) :
    Completes .retLo s [.read s.sp (Safety.pop1 s), .read (s.sp - 1#8) (Safety.pop2 s)]
      { s with ip := combine (Safety.pop2 s) (Safety.pop1 s), sp := s.sp - 2#8, latch := Safety.pop2 s } :=
  .read rfl rfl nofun (.readLast (s := { s with latch := Safety.pop1 s, sp := s.sp - 1#8 }) rfl
    (congrArg (fun u => (Flight.idle, u.setIp (combine (Safety.pop2 s) (Safety.pop1 s))))
      (spDown_second s)))

theorem completes_jumpNonZero (s : State) :
    Completes .jumpLo s
      [.read s.sp (Safety.pop1 s), .read (s.sp - 1#8) (Safety.pop2 s), .read (s.sp - 2#8) (Safety.pop3 s)]
      { s with
        ip := if Safety.pop3 s = 0#4 then s.ip + 1#8 else combine (Safety.pop2 s) (Safety.pop1 s)
        sp := s.sp - 3#8
        latch := Safety.pop3 s } := by
  refine .popAddr rfl rfl nofun rfl (congrArg (Prod.mk _) (spDown_second s)) nofun (.readLast rfl ?_)
  change (Flight.idle, if Safety.pop3 s = 0#4 then advance (spDown { s with latch := Safety.pop3 s, sp := s.sp - 2#8 })
    else (spDown { s with latch := Safety.pop3 s, sp := s.sp - 2#8 }).setIp _) = _
  rw [spDown_third]
  split <;> rfl

theorem completes_call (s : State) :
    Completes .callLo s
      [.read s.sp (Safety.pop1 s), .read (s.sp - 1#8) (Safety.pop2 s),
       .write (s.sp - 1#8) (hi (s.ip + 1#8)), .write s.sp (lo (s.ip + 1#8))]
      { s with
        ip := combine (Safety.pop2 s) (Safety.pop1 s)
        latch := lo (s.ip + 1#8)
        mem := Memory.put (Memory.put s.mem (s.sp - 1#8) (hi (s.ip + 1#8))) s.sp (lo (s.ip + 1#8)) } := by
  have hup : s.sp - 2#8 + 1#8 = s.sp - 1#8 := addr_sub_two_add_one s.sp
  have htop : s.sp - 1#8 + 1#8 = s.sp := BitVec.sub_add_cancel s.sp 1#8
  refine .popAddr (f' := .callPushHi (s.ip + 1#8))
    (s' := { s with ip := combine (Safety.pop2 s) (Safety.pop1 s), latch := Safety.pop2 s, sp := s.sp - 2#8 })
    rfl rfl nofun rfl ?_ nofun ?_
  · exact congrArg (fun u => (Flight.callPushHi (s.ip + 1#8), u.setIp (combine (Safety.pop2 s) (Safety.pop1 s))))
      (spDown_second s)
  · refine .write (f' := .callPushLo (s.ip + 1#8))
      (s' := { s with
        ip := combine (Safety.pop2 s) (Safety.pop1 s)
        latch := hi (s.ip + 1#8)
        sp := s.sp - 1#8
        mem := Memory.put s.mem (s.sp - 1#8) (hi (s.ip + 1#8)) }) ?_ ?_ nofun (.writeLast ?_ ?_)
    · simp [request, hup]
    · simp [resume, spUp, memWrite, State.setMem, State.setLatch, State.setSp, hup]
    · simp [request, htop]
    · simp [resume, spUp, memWrite, State.setMem, State.setLatch, State.setSp, htop]

theorem completes_load (s : State) :
    Completes .loadLo s
      [.read s.sp (Safety.pop1 s), .read (s.sp - 1#8) (Safety.pop2 s), .read (loadAddress s) (loadedNibble s),
       .write (s.sp - 1#8) (loadedNibble s)]
      { s with
        ip := s.ip + 1#8
        sp := s.sp - 1#8
        latch := loadedNibble s
        mem := Memory.put s.mem (s.sp - 1#8) (loadedNibble s) } := by
  have hup : s.sp - 2#8 + 1#8 = s.sp - 1#8 := addr_sub_two_add_one s.sp
  refine .popAddr (f' := .loadRead (loadAddress s)) (s' := { s with latch := Safety.pop2 s, sp := s.sp - 2#8 })
    rfl rfl nofun rfl ?_ nofun
    (.read (f' := .loadPush (loadedNibble s)) rfl rfl nofun (.writeLast ?_ ?_))
  · rw [loadAddress_eq]
    exact congrArg (Prod.mk _) (spDown_second s)
  · simp [request, hup]
  · simp [resume, spUp, advance, memWrite, State.setMem, State.setLatch, State.setSp, State.setIp, hup]

theorem completes_store (s : State) :
    Completes .storeLo s
      [.read s.sp (Safety.pop1 s), .read (s.sp - 1#8) (Safety.pop2 s), .read (s.sp - 2#8) (Safety.pop3 s),
       .write (storeAddress s) (Safety.pop3 s)]
      { s with
        ip := s.ip + 1#8
        sp := s.sp - 3#8
        latch := Safety.pop3 s
        mem := Memory.put s.mem (storeAddress s) (Safety.pop3 s) } := by
  refine .popAddr (f' := .storeData (storeAddress s)) (s' := { s with latch := Safety.pop2 s, sp := s.sp - 2#8 })
    rfl rfl nofun rfl ?_ nofun
    (.read (f' := .storeWrite (storeAddress s) (Safety.pop3 s))
      (s' := { s with latch := Safety.pop3 s, sp := s.sp - 3#8 }) rfl ?_ nofun (.writeLast rfl rfl))
  · rw [storeAddress_eq]
    exact congrArg (Prod.mk _) (spDown_second s)
  · exact congrArg (Prod.mk _) (spDown_third s)

/-- Settles O31: JumpNonZero's meaning, and its cycle. -/
theorem jumpNonZeroTestsThirdNibble : Obligations.JumpNonZeroTestsThirdNibble :=
  ⟨exec_jumpNonZero, runsInOneCycle_of_completes (i := .jumpNonZero) (f := .jumpLo) nofun nofun (fun _ => by simp)
    fun s => ⟨_, _, rfl, exec_jumpNonZero s, completes_jumpNonZero s⟩⟩

/-- Settles O32: Call's meaning, the frame from its two writes, and its cycle. -/
theorem callSwapsTargetForReturnAddress : Obligations.CallSwapsTargetForReturnAddress := by
  refine ⟨fun s => ⟨_, exec_call s, rfl, rfl, rfl, rfl, fun b => ?_⟩,
    runsInOneCycle_of_completes (i := .call) (f := .callLo) nofun nofun (fun _ => by simp)
      fun s => ⟨_, _, rfl, exec_call s, completes_call s⟩⟩
  rw [Memory.find_put, Memory.find_put]

/-- Settles O33: Return's meaning, and its cycle. -/
theorem returnJumpsToPoppedAddress : Obligations.ReturnJumpsToPoppedAddress :=
  ⟨exec_ret, runsInOneCycle_of_completes (i := .ret) (f := .retLo) nofun nofun (fun _ => by simp)
    fun s => ⟨_, _, rfl, exec_ret s, completes_ret s⟩⟩

/-- Settles O34: Load's meaning, the frame from its one write, and its cycle. -/
theorem loadPushesNibble : Obligations.LoadPushesNibble :=
  ⟨loadAddress_eq, fun s => ⟨_, exec_load s, rfl, rfl, rfl, rfl, fun b => Memory.find_put s.mem _ b _⟩,
   runsInOneCycle_of_completes (i := .load) (f := .loadLo) nofun nofun (fun _ => by simp)
    fun s => ⟨_, _, rfl, exec_load s, completes_load s⟩⟩

/-- Settles O35: Store's meaning, the frame from its one write, and its cycle. -/
theorem storeWritesNibble : Obligations.StoreWritesNibble :=
  ⟨storeAddress_eq, fun s => ⟨_, exec_store s, rfl, rfl, rfl, rfl, fun b => Memory.find_put s.mem _ b _⟩,
   runsInOneCycle_of_completes (i := .store) (f := .storeLo) nofun nofun (fun _ => by simp)
    fun s => ⟨_, _, rfl, exec_store s, completes_store s⟩⟩

/-! Add and Subtract: the accesses of a ripple, two for each step (R99, R137). -/

theorem rippleStep_state (a : Addr) (c : Nibble) (s : State) :
    (rippleStep a c s).2 = memWrite a (addC (busValue s a) c).1 (s.setLatch (busValue s a)) := by
  simp [rippleStep, memRead_spec]

theorem completes_ripple_last {a : Addr} {c : Nibble} {s : State} (h : (busValue s a).toNat + c.toNat < 16) :
    Completes (.rippleRead a c) s [.read a (busValue s a), .write a (addC (busValue s a) c).1]
      (rippleStep a c s).2 := by
  refine .read (f' := .rippleWrite a (addC (busValue s a) c).1 (addC (busValue s a) c).2) rfl rfl nofun
    (.writeLast rfl ?_)
  rw [rippleStep_state, resume, if_pos ((addC_carry_eq_zero_iff _ _).2 h)]

theorem completes_ripple_more {a : Addr} {c : Nibble} {s t : State} {tr : List Access}
    (h : 16 ≤ (busValue s a).toNat + c.toNat)
    (rest : Completes (.rippleRead (a - 1#8) 1#4) (rippleStep a c s).2 tr t) :
    Completes (.rippleRead a c) s (.read a (busValue s a) :: .write a (addC (busValue s a) c).1 :: tr) t := by
  have hcarry := (addC_carry_eq_one_iff _ _).2 h
  refine .read (f' := .rippleWrite a (addC (busValue s a) c).1 (addC (busValue s a) c).2) rfl rfl nofun
    (.write (f' := .rippleRead (a - 1#8) 1#4) rfl ?_ nofun rest)
  rw [rippleStep_state, resume, hcarry, if_neg (by decide)]

theorem completes_ripple {n : Nat} {a : Addr} {c : Nibble} {s t : State} (h : ripple n a c s = some t) :
    ∃ m tr, 1 ≤ m ∧ m ≤ n ∧ Completes (.rippleRead a c) s tr t ∧ tr.length = 2 * m ∧
      tr.map Safety.place = Safety.ripplePlaces m a := by
  induction n generalizing a c s with
  | zero => simp [ripple] at h
  | succ n ih =>
    obtain ⟨hlt, rfl⟩ | ⟨hcarry, hrest⟩ := ripple_succ_inv h
    · exact ⟨1, _, le_rfl, by omega, completes_ripple_last hlt, rfl, rfl⟩
    · obtain ⟨m, tr, hm, hmn, hcompletes, hlen, hplaces⟩ := ih hrest
      refine ⟨m + 1, _, by omega, by omega, completes_ripple_more hcarry hcompletes, ?_, ?_⟩
      · simp only [List.length_cons]
        omega
      · simp only [List.map_cons, hplaces, Safety.place, Safety.ripplePlaces]

/-- The cycle of an instruction that advances `ip`, pops a nibble, and ripples the carry `c` makes of it: what Add and
Subtract share. -/
theorem arithmetic_cycle {i : Instr} {f : Flight} {c : Nibble → Nibble} (hpush : ∀ imm, i ≠ .push imm)
    (hf : f ≠ .idle) (hbegin : ∀ u, beginInstr i u = (f, advance u)) (hrequest : ∀ u, request f u = some (.read u.sp))
    (hresume : ∀ v u, resume f v u = (.rippleRead (spDown u).sp (c v), spDown u))
    (hexec : ∀ u, ∃ t, ripple rippleBound (u.sp - 1#8) (c (Safety.pop1 u)) (rippleStart u) = some t ∧
      exec i u = .next t)
    {s : State} (hrun : s.run = .running) (hop : fetchedOpcode s = opcodeOf i) :
    ∃ (m : Nat) (tr : List Access) (t : State), 1 ≤ m ∧ m ≤ 257 ∧ step s = .next t ∧
      cycleAccesses s = some (tr, t) ∧ tr.length = 2 + 2 * m ∧
      tr.map Safety.place = (false, s.ip) :: (false, s.sp) :: Safety.ripplePlaces m (s.sp - 1#8) := by
  obtain ⟨t, hripple, hexec⟩ := hexec (s.setLatch (opcodeOf i))
  obtain ⟨m, tr, hm, hmn, hcompletes, hlen, hplaces⟩ := completes_ripple hripple
  have hpop : Completes f (advance (s.setLatch (opcodeOf i)))
      (.read s.sp (Safety.pop1 (s.setLatch (opcodeOf i))) :: tr) t :=
    .read (hrequest _) (hresume _ _) nofun hcompletes
  have hcycle := completes_fetch hrun hop (by rw [decodeOpcode_opcodeOf hpush, hbegin]) hf hpop
  refine ⟨m, _, t, hm, hmn, (step_of_opcode hrun hpush hop).trans hexec, cycleAccesses_of_completes hcycle ?_, ?_, ?_⟩
  · simp only [List.length_cons, hlen, accessBound]
    omega
  · simp only [List.length_cons, hlen]
    omega
  · rw [List.map_cons, List.map_cons, hplaces]
    rfl

/-- Settles O36: Add ripples what it pops, Subtract the negation of it. -/
theorem arithmeticAccessOrder : Obligations.ArithmeticAccessOrder := by
  rintro s hrun (hop | hop)
  · exact arithmetic_cycle (i := .add) (f := .addPop) (c := fun v => v) nofun nofun (fun _ => rfl) (fun _ => rfl)
      (fun _ _ => rfl) exec_add hrun hop
  · exact arithmetic_cycle (i := .subtract) (f := .subPop) (c := negate) nofun nofun (fun _ => rfl) (fun _ => rfl)
      (fun _ _ => rfl) exec_subtract hrun hop

/-! Any cycle. -/

/-- What an instruction's own cycle says of the step and its accesses. -/
theorem step_and_accesses_of_runsInOneCycle {i : Instr} {rest : State → List Access} (h : Safety.RunsInOneCycle i rest)
    {s : State} (hrun : s.run = .running) (hop : fetchedOpcode s = opcodeOf i) :
    ∃ tr t, step s = .next t ∧ cycleAccesses s = some (tr, t) := by
  obtain ⟨t, -, hstep, haccesses⟩ := h s hrun hop
  exact ⟨_, t, hstep, haccesses⟩

/-- Every cycle of a running CPU is its accesses, one after another. -/
theorem step_and_accesses {s : State} (hrun : s.run = .running) :
    ∃ tr t, step s = .next t ∧ cycleAccesses s = some (tr, t) := by
  obtain ⟨hop, -⟩ | ⟨i, hpush, hop, -⟩ := fetch_cases s
  · obtain ⟨t, hstep, -, haccesses⟩ := step_and_accesses_of_push hrun hop
    exact ⟨_, t, hstep, haccesses⟩
  · cases i with
    | push imm => exact absurd rfl (hpush imm)
    | add =>
      obtain ⟨-, tr, t, -, -, hstep, haccesses, -⟩ := arithmeticAccessOrder s hrun (.inl hop)
      exact ⟨tr, t, hstep, haccesses⟩
    | subtract =>
      obtain ⟨-, tr, t, -, -, hstep, haccesses, -⟩ := arithmeticAccessOrder s hrun (.inr hop)
      exact ⟨tr, t, hstep, haccesses⟩
    | nop => exact step_and_accesses_of_runsInOneCycle runsInOneCycle_nop hrun hop
    | pop => exact step_and_accesses_of_runsInOneCycle runsInOneCycle_pop hrun hop
    | jumpNonZero => exact step_and_accesses_of_runsInOneCycle jumpNonZeroTestsThirdNibble.2 hrun hop
    | call => exact step_and_accesses_of_runsInOneCycle callSwapsTargetForReturnAddress.2 hrun hop
    | ret => exact step_and_accesses_of_runsInOneCycle returnJumpsToPoppedAddress.2 hrun hop
    | load => exact step_and_accesses_of_runsInOneCycle loadPushesNibble.2.2 hrun hop
    | store => exact step_and_accesses_of_runsInOneCycle storeWritesNibble.2.2 hrun hop
    | halt => exact step_and_accesses_of_runsInOneCycle runsInOneCycle_halt hrun hop
    | illegalA | illegalB | illegalC | illegalD | illegalE =>
      exact step_and_accesses_of_runsInOneCycle (runsInOneCycle_illegal rfl) hrun hop

/-- A running CPU's cycle as `Completes`, within R137's bound. -/
theorem completes_cycle {s : State} (hrun : s.run = .running) :
    ∃ tr t, step s = .next t ∧ cycleAccesses s = some (tr, t) ∧ Completes .idle s tr t ∧ tr.length ≤ accessBound := by
  obtain ⟨tr, t, hstep, haccesses⟩ := step_and_accesses hrun
  obtain ⟨hnone, -⟩ | ⟨hcompletes, hlen⟩ := completes_of_runAccesses haccesses
  · simp [request_idle_running hrun] at hnone
  · exact ⟨tr, t, hstep, haccesses, hcompletes, hlen⟩

theorem cycleAccesses_halted {s : State} (h : s.run = .halted) : cycleAccesses s = some ([], s) := by
  simp [cycleAccesses, accessBound, rippleBound, runAccesses_succ, request, h]

/-! The latch (R15): every access leaves the nibble it moved there, and going on leaves the latch. -/

theorem perform_latch (q : BusRequest) (s : State) : (perform q s).2.2.latch = Safety.moved (perform q s).1 := by
  cases q with
  | read a => simp [perform, Safety.moved]
  | write a v => rfl

theorem Completes.latch {f : Flight} {s t : State} {tr : List Access} (h : Completes f s tr t) :
    tr.getLast?.map Safety.moved = some t.latch := by
  induction h with
  | @last f s t q hq hr =>
    have hlatch := resume_latch f (perform q s).2.1 (perform q s).2.2
    rw [hr, perform_latch] at hlatch
    rw [List.getLast?_singleton, Option.map_some, ← hlatch]
  | @more f f' s s' t q tr hq hr hf rest ih =>
    cases tr with
    | nil => simp at ih
    | cons x tr => rw [List.getLast?_cons_cons, ih]

/-- Settles O48: the last access of the cycle leaves its nibble in the latch. -/
theorem latchIsLastNibbleMoved : Obligations.LatchIsLastNibbleMoved := by
  intro s t tr h
  obtain ⟨-, rfl, rfl⟩ | ⟨hcompletes, -⟩ := completes_of_runAccesses h
  · rfl
  · rw [hcompletes.latch, Option.getD_some]

end Sys2Proof.Machine
end

section
/-! PROOFS. What every step keeps (spec/10_state.md R13 to R16, R20): where an instruction leaves `ip`, `sp` and the run
state, and that it changes the array by writes alone. -/

namespace Sys2Proof.Machine

/-! The array changes by writes alone, and a write keeps the canonical form and makes no cell unwritten. -/

/-- The array `m'` comes of `m` by bus writes. -/
inductive Writes (m : Memory) : Memory → Prop
  | refl : Writes m m
  | put {m' : Memory} (h : Writes m m') (a : Addr) (v : Nibble) : Writes m (Memory.put m' a v)

theorem writes_put (m : Memory) (a : Addr) (v : Nibble) : Writes m (Memory.put m a v) := .put .refl a v

theorem Writes.trans {m m' m'' : Memory} (h : Writes m m') (h' : Writes m' m'') : Writes m m'' := by
  induction h' with
  | refl => exact h
  | put _ a v ih => exact ih.put a v

theorem Writes.wf {m m' : Memory} (h : Writes m m') (hm : Memory.wf m = true) : Memory.wf m' = true := by
  induction h with
  | refl => exact hm
  | put _ a v ih => exact Memory.put_wf a v ih

theorem isOpen_put_of_written {m : Memory} {b : Addr} (h : isOpen m b = false) (a : Addr) (v : Nibble) :
    isOpen (Memory.put m a v) b = false := by
  by_cases hb : b = a
  · simp [isOpen, hb]
  · rwa [isOpen, Memory.find_put_other m v hb]

theorem Writes.keepsWritten {m m' : Memory} (h : Writes m m') : Safety.keepsWritten m m' := by
  intro b hb
  induction h with
  | refl => exact hb
  | put _ a v ih => exact isOpen_put_of_written ih a v

theorem rippleStep_writes (a : Addr) (c : Nibble) (s : State) : Writes s.mem (rippleStep a c s).2.mem := by
  rw [rippleStep_mem]
  exact writes_put _ _ _

theorem ripple_writes {fuel : Nat} {a : Addr} {c : Nibble} {s t : State} (h : ripple fuel a c s = some t) :
    Writes s.mem t.mem :=
  ripple_induct (R := fun s t => Writes s.mem t.mem) rippleStep_writes (fun _ _ _ => Writes.trans) h

/-! One instruction. -/

/-- R13: where an instruction leaves `ip`, executed in the state `u` after its fetch. -/
def ipAfter (i : Instr) (u : State) : Addr :=
  match i with
  | .nop | .pop | .add | .subtract | .load | .store => u.ip + 1#8
  | .push _ => u.ip + 2#8
  | .jumpNonZero => if Safety.pop3 u = 0#4 then u.ip + 1#8 else combine (Safety.pop2 u) (Safety.pop1 u)
  | .call | .ret => combine (Safety.pop2 u) (Safety.pop1 u)
  | .halt | .illegalA | .illegalB | .illegalC | .illegalD | .illegalE => u.ip

/-- R16: the run state an instruction leaves. -/
def runAfter (i : Instr) (u : State) : RunState :=
  if i = .halt ∨ Safety.isIllegal i = true then .halted else u.run

theorem runAfter_eq_halted_iff (i : Instr) (u : State) :
    runAfter i u = .halted ↔ u.run = .halted ∨ i = .halt ∨ Safety.isIllegal i = true := by
  by_cases h : i = .halt ∨ Safety.isIllegal i = true <;> simp [runAfter, h]

/-- What an instruction leaves of the registers and the array, whatever the data. -/
structure Leaves (i : Instr) (u t : State) : Prop where
  ip : t.ip = ipAfter i u
  sp : t.sp = u.sp + Safety.spChange i
  run : t.run = runAfter i u
  mem : Writes u.mem t.mem

theorem leaves_of_ripple {i : Instr} (hip : ∀ u, ipAfter i u = u.ip + 1#8) (hsp : Safety.spChange i = -1#8)
    (hrun : ∀ u, runAfter i u = u.run) {c : Nibble} {u t : State}
    (h : ripple rippleBound (u.sp - 1#8) c (rippleStart u) = some t) : Leaves i u t := by
  obtain ⟨htip, htsp, htrun⟩ := ripple_registers h
  have hmem : Writes (rippleStart u).mem t.mem := ripple_writes h
  exact ⟨htip.trans (hip u).symm, by rw [htsp, hsp, ← BitVec.sub_eq_add_neg]; rfl, htrun.trans (hrun u).symm, hmem⟩

theorem leaves_of_illegal {i : Instr} (hi : Safety.isIllegal i = true) (u : State) :
    Leaves i u { u with run := .halted } := by
  cases i with
  | illegalA | illegalB | illegalC | illegalD | illegalE => exact ⟨rfl, (BitVec.add_zero _).symm, rfl, .refl⟩
  | _ => cases hi

theorem exec_leaves (i : Instr) (u : State) : ∃ t, exec i u = .next t ∧ Leaves i u t := by
  cases i with
  | nop => exact ⟨_, exec_nop u, rfl, (BitVec.add_zero _).symm, rfl, .refl⟩
  | push imm => exact ⟨_, exec_push imm u, rfl, rfl, rfl, writes_put _ _ _⟩
  | pop => exact ⟨_, exec_pop u, rfl, BitVec.sub_eq_add_neg _ _, rfl, .refl⟩
  | add =>
    obtain ⟨t, hripple, hexec⟩ := exec_add u
    exact ⟨t, hexec, leaves_of_ripple (fun _ => rfl) rfl (fun _ => rfl) hripple⟩
  | subtract =>
    obtain ⟨t, hripple, hexec⟩ := exec_subtract u
    exact ⟨t, hexec, leaves_of_ripple (fun _ => rfl) rfl (fun _ => rfl) hripple⟩
  | jumpNonZero => exact ⟨_, exec_jumpNonZero u, rfl, BitVec.sub_eq_add_neg _ _, rfl, .refl⟩
  | call => exact ⟨_, exec_call u, rfl, (BitVec.add_zero _).symm, rfl, (writes_put _ _ _).put _ _⟩
  | ret => exact ⟨_, exec_ret u, rfl, BitVec.sub_eq_add_neg _ _, rfl, .refl⟩
  | load => exact ⟨_, exec_load u, rfl, BitVec.sub_eq_add_neg _ _, rfl, writes_put _ _ _⟩
  | store => exact ⟨_, exec_store u, rfl, BitVec.sub_eq_add_neg _ _, rfl, writes_put _ _ _⟩
  | illegalA | illegalB | illegalC | illegalD | illegalE => exact ⟨_, exec_illegal rfl u, leaves_of_illegal rfl u⟩
  | halt => exact ⟨_, exec_halt u, rfl, (BitVec.add_zero _).symm, rfl, .refl⟩

/-! One step. -/

theorem step_leaves {s t : State} (hrun : s.run = .running) (h : step s = .next t) :
    Leaves (fetch s).1 (fetch s).2 t := by
  obtain ⟨t', hexec, hleaves⟩ := exec_leaves (fetch s).1 (fetch s).2
  rw [step_running hrun, hexec] at h
  exact Host.Outcome.next.inj h ▸ hleaves

theorem step_writes {s t : State} (h : step s = .next t) : Writes s.mem t.mem := by
  cases hrun : s.run with
  | halted =>
    obtain rfl : s = t := Host.Outcome.next.inj ((step_halted hrun).symm.trans h)
    exact .refl
  | running =>
    have hmem := (step_leaves hrun h).mem
    rwa [fetch_mem] at hmem

/-- Settles O46: what the executed instruction leaves in `ip`, which the fetch has not moved. -/
theorem ipAfterEachInstruction : Obligations.IpAfterEachInstruction := by
  intro s t hrun h u
  rw [(step_leaves hrun h).ip, ← fetch_ip s]
  rfl

/-- Settles O47: what the executed instruction leaves in `sp`, which the fetch has not moved. -/
theorem spChangeOfEachInstruction : Obligations.SpChangeOfEachInstruction := by
  intro s t hrun h
  rw [(step_leaves hrun h).sp, fetch_sp]

/-- Settles O23: a halted CPU stays halted, and a running one halts by the executed instruction alone. -/
theorem onlyHaltAndIllegalOpcodesStop : Obligations.OnlyHaltAndIllegalOpcodesStop := by
  intro s t h
  cases hrun : s.run with
  | halted =>
    obtain rfl : s = t := Host.Outcome.next.inj ((step_halted hrun).symm.trans h)
    simp [hrun]
  | running => rw [(step_leaves hrun h).run, runAfter_eq_halted_iff, fetch_run, hrun]

/-- Settles O43: a step changes the array by writes, which keep its canonical form. -/
theorem stepKeepsMemoryCanonical : Obligations.StepKeepsMemoryCanonical :=
  fun _ _ hinv h => (step_writes h).wf hinv

/-- Settles O45: a step changes the array by writes, a host write by one. -/
theorem writtenCellsStayWritten : Obligations.WrittenCellsStayWritten :=
  ⟨fun _ _ h => (step_writes h).keepsWritten, fun a v s => (writes_put s.mem a v).keepsWritten⟩

/-! Nothing written on the stack (R90): every pop answers the latch. -/

section Unwritten

variable {u : State}

theorem pop1_unwritten (h : Memory.find u.mem u.sp = none) : Safety.pop1 u = u.latch := busValue_unwritten h

theorem pop2_unwritten (h : Memory.find u.mem u.sp = none) (h' : Memory.find u.mem (u.sp - 1#8) = none) :
    Safety.pop2 u = u.latch := by
  rw [Safety.pop2, h', Option.getD_none, pop1_unwritten h]

theorem pop3_unwritten (h : Memory.find u.mem u.sp = none) (h' : Memory.find u.mem (u.sp - 1#8) = none)
    (h'' : Memory.find u.mem (u.sp - 2#8) = none) : Safety.pop3 u = u.latch := by
  rw [Safety.pop3, h'', Option.getD_none, pop2_unwritten h h']

end Unwritten

/-- Settles O37: after the fetch the latch holds the opcode, and every pop answers it. -/
theorem unwrittenOperandsAreTheOpcode : Obligations.UnwrittenOperandsAreTheOpcode := by
  intro s hrun htop hsecond hthird
  have hpop1 : ∀ op, Safety.pop1 (s.setLatch op) = op := fun op => pop1_unwritten (u := s.setLatch op) htop
  have hpop2 : ∀ op, Safety.pop2 (s.setLatch op) = op := fun op => pop2_unwritten (u := s.setLatch op) htop hsecond
  have hpop3 : ∀ op, Safety.pop3 (s.setLatch op) = op :=
    fun op => pop3_unwritten (u := s.setLatch op) htop hsecond hthird
  refine ⟨fun hop => ?_, fun hop => ?_, fun hop => ?_, fun hop htarget => ?_, fun hop => ?_⟩
  · refine ⟨_, (step_of_opcode (i := .jumpNonZero) hrun nofun hop).trans (exec_jumpNonZero _), ?_, hpop3 _, rfl⟩
    simp only [opcodeOf, hpop1, hpop2, hpop3]
    rfl
  · refine ⟨_, (step_of_opcode (i := .call) hrun nofun hop).trans (exec_call _), ?_⟩
    simp only [opcodeOf, hpop1, hpop2]
    rfl
  · refine ⟨_, (step_of_opcode (i := .ret) hrun nofun hop).trans (exec_ret _), ?_, hpop2 _, rfl⟩
    simp only [opcodeOf, hpop1, hpop2]
    rfl
  · have haddress : loadAddress (s.setLatch 8#4) = 0x88#8 := by
      rw [loadAddress_eq, hpop1, hpop2]
      rfl
    have hloaded : loadedNibble (s.setLatch 8#4) = 8#4 := by
      rw [loadedNibble, haddress, State.setLatch_mem, htarget, hpop2, Option.getD_none]
    refine ⟨_, (step_of_opcode (i := .load) hrun nofun hop).trans (exec_load _), ?_, hloaded⟩
    simp only [opcodeOf, Memory.find_put_same, hloaded]
  · have haddress : storeAddress (s.setLatch 9#4) = 0x99#8 := by
      rw [storeAddress_eq, hpop1, hpop2]
      rfl
    refine ⟨_, (step_of_opcode (i := .store) hrun nofun hop).trans (exec_store _), ?_, hpop3 _⟩
    simp only [opcodeOf, haddress, Memory.find_put_same, hpop3]

/-! Two instructions in a row, and a write before a fetch. -/

/-- Settles O38: Return pops the address Call pushed. -/
theorem callThenReturnComesBack : Obligations.CallThenReturnComesBack := by
  intro s
  obtain ⟨haddress, hsp⟩ := popAddr_pushAddr (s.ip + 1#8) ((popAddr s).2.setIp (popAddr s).1)
  refine ⟨pushAddr ((popAddr s).2.ip + 1#8) ((popAddr s).2.setIp (popAddr s).1), _, rfl, rfl, ?_, ?_⟩
  · rw [popAddr_ip, State.setIp_ip, haddress]
  · rw [popAddr_ip, State.setIp_sp, hsp, State.setIp_sp, popAddr_eq]

theorem fetchedOpcode_written {s : State} {v : Nibble} (h : Memory.find s.mem s.ip = some v) : fetchedOpcode s = v := by
  rw [fetchedOpcode_eq, busValue_written h]

/-- Settles O39: the cell just written is the one fetched. -/
theorem writtenCellIsFetched : Obligations.WrittenCellIsFetched := by
  refine ⟨fun a v s hip => fetchedOpcode_written ?_, fun s t hexec haddress => fetchedOpcode_written ?_⟩
  · rw [hip, memWrite_mem, Memory.find_put_same]
  · obtain rfl := Host.Outcome.next.inj ((exec_store s).symm.trans hexec)
    rw [← haddress, Memory.find_put_same]

/-! The empty array (R91): the fetch answers the latch, which is Nop's opcode. -/

theorem step_empty {s : State} (hrun : s.run = .running) (hlatch : s.latch = 0#4) (hmem : s.mem = []) :
    step s = .next { s with ip := s.ip + 1#8 } := by
  have hop : fetchedOpcode s = opcodeOf .nop := by
    rw [fetchedOpcode_eq, busValue_unwritten (by rw [hmem]; rfl), hlatch]
    rfl
  rw [step_of_opcode (i := .nop) hrun nofun hop, exec_nop, opcodeOf, ← hlatch, State.setLatch_self]

/-- Settles O49: by induction on the cycles, each of which advances `ip` and keeps the rest. -/
theorem emptyMemoryRunsNops : Obligations.EmptyMemoryRunsNops := by
  intro n s hrun hlatch hmem
  induction n generalizing s with
  | zero => simp [Host.Core.run]
  | succ n ih =>
    rw [core_run_next (step_empty hrun hlatch hmem)]
    refine (ih { s with ip := s.ip + 1#8 } hrun hlatch hmem).trans ?_
    rw [BitVec.add_assoc, ← BitVec.ofNat_add, Nat.add_comm 1 n]

end Sys2Proof.Machine
end

section
/-! PROOFS. The host interface (spec/60_exceptions.md R117, R121, spec/70_reset_and_hazards.md R123 to R125): reset,
host writes and cycles, and a halted CPU. -/

namespace Sys2Proof.Machine

/-! Reset. -/

theorem imageWellFormed_iff (image : List Nibble) : imageWellFormed image = true ↔ image.length ≤ 256 := by
  simp [imageWellFormed]

theorem find_load_image (image : List Nibble) (a : Addr) : Memory.find (Memory.load 0 image) a = image[a.toNat]? := by
  rw [Memory.find_load, if_pos (Nat.zero_le _), Nat.sub_zero]

theorem resetWith_of_le (cfg : Config) {image : List Nibble} (h : image.length ≤ 256) :
    resetWith cfg image =
      some { ip := 0#8, sp := cfg.spReset, latch := 0#4, run := .running, mem := Memory.load 0 image } :=
  if_pos ((imageWellFormed_iff image).2 h)

theorem resetWith_of_lt (cfg : Config) {image : List Nibble} (h : 256 < image.length) : resetWith cfg image = none :=
  if_neg fun hwf => Nat.not_le.2 h ((imageWellFormed_iff image).1 hwf)

theorem resetWith_wf {cfg : Config} {image : List Nibble} {t : State} (h : resetWith cfg image = some t) :
    Safety.Inv t := by
  obtain hle | hlt := le_or_gt image.length 256
  · obtain rfl := Option.some.inj ((resetWith_of_le cfg hle).symm.trans h)
    exact Memory.load_wf image hle
  · simp [resetWith_of_lt cfg hlt] at h

/-- Settles O44: an image that fits is loaded in canonical form. -/
theorem resetMemoryIsCanonical : Obligations.ResetMemoryIsCanonical :=
  ⟨Memory.reset_wf, fun _ _ _ => resetWith_wf⟩

/-- Settles O50: the state reset builds, its cells those of the image. -/
theorem resetLeavesImageAndRegisters : Obligations.ResetLeavesImageAndRegisters :=
  fun cfg image =>
    ⟨fun hle => ⟨_, resetWith_of_le cfg hle, rfl, rfl, rfl, rfl, find_load_image image⟩, resetWith_of_lt cfg⟩

/-! Host operations one after another. -/

theorem hostApply_cycle (cfg : Config) {s t : State} (h : step s = .next t) : hostApply cfg .cycle s = some t := by
  simp [hostApply, h]

theorem hostApply_write (cfg : Config) (a : Addr) (v : Nibble) (s : State) :
    hostApply cfg (.write a v) s = some (memWrite a v s) := rfl

theorem hostRun_cons (cfg : Config) {op : HostOp} {s t : State} (h : hostApply cfg op s = some t) (ops : List HostOp) :
    hostRun cfg (op :: ops) s = hostRun cfg ops t := by
  simp [hostRun, h]

/-- One operation that is no reset with too long an image goes through, and keeps the canonical form. -/
theorem hostApply_completes (cfg : Config) {op : HostOp} (hop : ∀ image, op = .reset image → image.length ≤ 256)
    (s : State) : ∃ t, hostApply cfg op s = some t ∧ (Safety.Inv s → Safety.Inv t) := by
  cases op with
  | reset image =>
    have hreset := resetWith_of_le cfg (hop image rfl)
    exact ⟨_, hreset, fun _ => resetWith_wf hreset⟩
  | cycle =>
    obtain ⟨t, ht⟩ := step_next s
    exact ⟨t, hostApply_cycle cfg ht, (step_writes ht).wf⟩
  | write a v => exact ⟨_, hostApply_write cfg a v s, (writes_put s.mem a v).wf⟩

/-- Settles O51: by induction on the operations. -/
theorem hostRunsComplete : Obligations.HostRunsComplete := by
  intro cfg ops s himages
  induction ops generalizing s with
  | nil => exact ⟨s, rfl, id⟩
  | cons op ops ih =>
    obtain ⟨t, ht, hinv⟩ := hostApply_completes cfg (fun image e => himages image (e ▸ List.mem_cons_self)) s
    obtain ⟨u, hu, hinv'⟩ := ih t fun image himage => himages image (List.mem_cons_of_mem _ himage)
    exact ⟨u, (hostRun_cons cfg ht ops).trans hu, hinv' ∘ hinv⟩

/-! A halted CPU. -/

theorem core_run_halted {s : State} (h : s.run = .halted) (n : Nat) : core.run n s = .next s := by
  induction n with
  | zero => simp [Host.Core.run]
  | succ n ih => rw [core_run_next (step_halted h), ih]

/-- One operation other than a reset leaves a halted CPU halted where it is. -/
theorem hostApply_halted (cfg : Config) {op : HostOp} (hop : ∀ image, op ≠ .reset image) {s : State}
    (h : s.run = .halted) :
    ∃ t, hostApply cfg op s = some t ∧ t.run = .halted ∧ t.ip = s.ip ∧ t.sp = s.sp := by
  cases op with
  | reset image => exact absurd rfl (hop image)
  | cycle => exact ⟨s, hostApply_cycle cfg (step_halted h), h, rfl, rfl⟩
  | write a v => exact ⟨_, hostApply_write cfg a v s, h, rfl, rfl⟩

theorem hostRun_halted (cfg : Config) {ops : List HostOp} (hops : ∀ op ∈ ops, ∀ image, op ≠ .reset image) {s : State}
    (h : s.run = .halted) :
    ∃ t, hostRun cfg ops s = some t ∧ t.run = .halted ∧ t.ip = s.ip ∧ t.sp = s.sp := by
  induction ops generalizing s with
  | nil => exact ⟨s, rfl, h, rfl, rfl⟩
  | cons op ops ih =>
    obtain ⟨t, ht, hrun, hip, hsp⟩ := hostApply_halted cfg (hops op List.mem_cons_self) h
    obtain ⟨u, hu, hurun, huip, husp⟩ := ih (fun op hop => hops op (List.mem_cons_of_mem _ hop)) hrun
    exact ⟨u, (hostRun_cons cfg ht ops).trans hu, hurun, huip.trans hip, husp.trans hsp⟩

/-- Settles O22: cycles do nothing, and host writes move no register but the latch. -/
theorem haltedUntilReset : Obligations.HaltedUntilReset :=
  ⟨fun _ n h => core_run_halted h n, fun cfg _ _ h hops => hostRun_halted cfg hops h⟩

end Sys2Proof.Machine
end

section
/-! PROOFS. Shared mode (spec/20_memory.md R40 to R42, spec/10_state.md R21, R22): what one event does to the array and
to each CPU, every order of events, and the simulation of the exclusive-mode cycle. -/

namespace Sys2Proof.Machine

/-! One access. -/

theorem accessStep_of_request {f : Flight} {s : State} {q : BusRequest} (h : request f s = some q) :
    accessStep f s = resume f (perform q s).2.1 (perform q s).2.2 := by
  simp [accessStep, h]

theorem accessStep_of_no_request {f : Flight} {s : State} (h : request f s = none) : accessStep f s = (f, s) := by
  simp [accessStep, h]

theorem accessStep_mem_of_read {f : Flight} {s : State} {a : Addr} (h : request f s = some (.read a)) :
    (accessStep f s).2.mem = s.mem := by
  rw [accessStep_of_request h, resume_mem, perform_read, State.setLatch_mem]

theorem accessStep_mem_of_write {f : Flight} {s : State} {a : Addr} {v : Nibble}
    (h : request f s = some (.write a v)) : (accessStep f s).2.mem = Memory.put s.mem a v := by
  rw [accessStep_of_request h, resume_mem, perform_write, memWrite_mem]

theorem accessStep_writes (f : Flight) (s : State) : Writes s.mem (accessStep f s).2.mem := by
  cases hq : request f s with
  | none =>
    rw [accessStep_of_no_request hq]
    exact .refl
  | some q =>
    cases q with
    | read a =>
      rw [accessStep_mem_of_read hq]
      exact .refl
    | write a v =>
      rw [accessStep_mem_of_write hq]
      exact writes_put _ _ _

theorem request_halted {s : State} (h : s.run = .halted) : request .idle s = none := by
  simp [request, h]

/-! One event: what each kind does to the system. -/

/-- The system after CPU `k` has gone on to wait as `f` says, in the state `s`. -/
def System.withInstance (y : System) (k : Nat) (f : Flight) (s : State) : System :=
  { mem := s.mem, cpus := y.cpus.set k (Instance.ofView f s) }

@[simp] theorem System.withInstance_mem (y : System) (k : Nat) (f : Flight) (s : State) :
    (y.withInstance k f s).mem = s.mem := rfl

@[simp] theorem System.withInstance_length (y : System) (k : Nat) (f : Flight) (s : State) :
    (y.withInstance k f s).cpus.length = y.cpus.length := List.length_set

theorem System.withInstance_other (y : System) {j k : Nat} (h : j ≠ k) (f : Flight) (s : State) :
    (y.withInstance k f s).cpus[j]? = y.cpus[j]? := List.getElem?_set_ne h.symm

theorem System.withInstance_same {y : System} {k : Nat} {c : Instance} (h : y.cpus[k]? = some c) (f : Flight)
    (s : State) : (y.withInstance k f s).cpus[k]? = some (Instance.ofView f s) := by
  obtain ⟨hk, -⟩ := List.getElem?_eq_some_iff.1 h
  exact List.getElem?_set_self hk

theorem System.withInstance_withInstance (y : System) (k : Nat) (f f' : Flight) (s s' : State) :
    (y.withInstance k f s).withInstance k f' s' = y.withInstance k f' s' := by
  simp [System.withInstance, List.set_set]

/-- A CPU put back as it was leaves the system as it was. -/
theorem System.withInstance_view {y : System} {k : Nat} {c : Instance} (h : y.cpus[k]? = some c) :
    y.withInstance k c.flight (c.view y.mem) = y := by
  obtain ⟨hk, rfl⟩ := List.getElem?_eq_some_iff.1 h
  rw [System.withInstance, ofView_view, List.set_getElem_self]
  rfl

theorem apply_access (cfg : Config) {y : System} {k : Nat} {c : Instance} (h : y.cpus[k]? = some c) :
    System.apply cfg (.access k) y =
      some (y.withInstance k (accessStep c.flight (c.view y.mem)).1 (accessStep c.flight (c.view y.mem)).2) := by
  simp [System.apply, System.withInstance, h]

theorem apply_hostWrite (cfg : Config) {y : System} {k : Nat} {c : Instance} (h : y.cpus[k]? = some c) (a : Addr)
    (v : Nibble) :
    System.apply cfg (.hostWrite k a v) y = some (y.withInstance k c.flight (memWrite a v (c.view y.mem))) := by
  simp [System.apply, System.withInstance, h]

theorem apply_access_inv {cfg : Config} {y y' : System} {k : Nat} (h : System.apply cfg (.access k) y = some y') :
    ∃ c, y.cpus[k]? = some c ∧
      y' = y.withInstance k (accessStep c.flight (c.view y.mem)).1 (accessStep c.flight (c.view y.mem)).2 := by
  cases hc : y.cpus[k]? with
  | none => simp [System.apply, hc] at h
  | some c => exact ⟨c, rfl, Option.some.inj (h.symm.trans (apply_access cfg hc))⟩

theorem apply_hostWrite_inv {cfg : Config} {y y' : System} {k : Nat} {a : Addr} {v : Nibble}
    (h : System.apply cfg (.hostWrite k a v) y = some y') :
    ∃ c, y.cpus[k]? = some c ∧ y' = y.withInstance k c.flight (memWrite a v (c.view y.mem)) := by
  cases hc : y.cpus[k]? with
  | none => simp [System.apply, hc] at h
  | some c => exact ⟨c, rfl, Option.some.inj (h.symm.trans (apply_hostWrite cfg hc a v))⟩

/-- The system a reset leaves: every CPU with the same registers, over the image. -/
def System.afterReset (cfg : Config) (ncpu : Nat) (image : List Nibble) : System where
  mem := Memory.load 0 image
  cpus := List.replicate ncpu { ip := 0#8, sp := cfg.spReset, latch := 0#4, run := .running, flight := .idle }

theorem System.reset_of_le (cfg : Config) {ncpu : Nat} {image : List Nibble} (hn : 1 ≤ ncpu)
    (himage : image.length ≤ 256) : System.reset cfg ncpu image = some (System.afterReset cfg ncpu image) := by
  simp [System.reset, System.afterReset, (imageWellFormed_iff image).2 himage, hn]

theorem System.reset_inv {cfg : Config} {ncpu : Nat} {image : List Nibble} {y : System}
    (h : System.reset cfg ncpu image = some y) : image.length ≤ 256 ∧ y = System.afterReset cfg ncpu image := by
  simp only [System.reset] at h
  split at h
  · rename_i hfits
    rw [Bool.and_eq_true, imageWellFormed_iff] at hfits
    exact ⟨hfits.1, (Option.some.inj h).symm⟩
  · cases h

/-- Settles O52: the system a reset leaves has `n` equal CPUs, and its cells are the image's. -/
theorem sharedResetIsUniform : Obligations.SharedResetIsUniform := by
  intro cfg n image hn himage
  refine ⟨_, System.reset_of_le cfg hn himage, List.length_replicate, fun c hc => ?_, find_load_image image⟩
  exact List.eq_of_mem_replicate hc

/-- Settles O54: an access changes the array as its request says, and without a request changes nothing. -/
theorem oneAccessChangesOneCell : Obligations.OneAccessChangesOneCell := by
  intro cfg y y' k c hc h
  obtain rfl := Option.some.inj ((apply_access cfg hc).symm.trans h)
  split
  case h_1 a v hq =>
    intro b
    rw [System.withInstance_mem, accessStep_mem_of_write hq]
    exact Memory.find_put y.mem a b v
  case h_2 a hq =>
    rw [System.withInstance_mem, accessStep_mem_of_read hq]
    rfl
  case h_3 hq => rw [accessStep_of_no_request hq, System.withInstance_view hc]

/-- Settles O55: an event of one CPU puts only that CPU anew. -/
theorem otherInstancesUntouched : Obligations.OtherInstancesUntouched := by
  rintro cfg y y' k j a v hjk (h | h)
  · obtain ⟨c, -, rfl⟩ := apply_access_inv h
    exact ⟨y.withInstance_other hjk _ _, y.withInstance_length k _ _⟩
  · obtain ⟨c, -, rfl⟩ := apply_hostWrite_inv h
    exact ⟨y.withInstance_other hjk _ _, y.withInstance_length k _ _⟩

/-! Every order of events (R41). -/

/-- What every event keeps: the canonical form and the number of CPUs. -/
theorem apply_keeps {cfg : Config} {e : Event} {y y' : System} (h : System.apply cfg e y = some y') :
    (Memory.wf y.mem = true → Memory.wf y'.mem = true) ∧ y'.cpus.length = y.cpus.length := by
  cases e with
  | access k =>
    obtain ⟨c, -, rfl⟩ := apply_access_inv h
    exact ⟨(accessStep_writes c.flight (c.view y.mem)).wf, y.withInstance_length k _ _⟩
  | hostWrite k a v =>
    obtain ⟨c, -, rfl⟩ := apply_hostWrite_inv h
    exact ⟨(writes_put y.mem a v).wf, y.withInstance_length k _ _⟩
  | reset image =>
    obtain ⟨himage, rfl⟩ := System.reset_inv h
    exact ⟨fun _ => Memory.load_wf image himage, List.length_replicate⟩

theorem apply_writes {cfg : Config} {e : Event} {y y' : System} (he : ∀ image, e ≠ .reset image)
    (h : System.apply cfg e y = some y') : Writes y.mem y'.mem := by
  cases e with
  | access k =>
    obtain ⟨c, -, rfl⟩ := apply_access_inv h
    exact accessStep_writes c.flight (c.view y.mem)
  | hostWrite k a v =>
    obtain ⟨c, -, rfl⟩ := apply_hostWrite_inv h
    exact writes_put y.mem a v
  | reset image => exact absurd rfl (he image)

theorem runEvents_cons (cfg : Config) {e : Event} {y z : System} (h : System.apply cfg e y = some z)
    (es : List Event) : System.runEvents cfg (e :: es) y = System.runEvents cfg es z := by
  simp [System.runEvents, h]

/-- A run of events is its first event and a run of the others. -/
theorem runEvents_cons_inv {cfg : Config} {e : Event} {es : List Event} {y y' : System}
    (h : System.runEvents cfg (e :: es) y = some y') :
    ∃ z, System.apply cfg e y = some z ∧ System.runEvents cfg es z = some y' := by
  cases hz : System.apply cfg e y with
  | none => simp [System.runEvents, hz] at h
  | some z => exact ⟨z, rfl, (runEvents_cons cfg hz es).symm.trans h⟩

/-- A relation between systems that every event of a kind keeps, and that composes, holds across a run of
such events. -/
theorem runEvents_induct {cfg : Config} {P : Event → Prop} {R : System → System → Prop} (hrefl : ∀ y, R y y)
    (hevent : ∀ e y z, P e → System.apply cfg e y = some z → R y z) (htrans : ∀ x y z, R x y → R y z → R x z)
    {es : List Event} (hes : ∀ e ∈ es, P e) {y y' : System} (h : System.runEvents cfg es y = some y') : R y y' := by
  induction es generalizing y with
  | nil =>
    obtain rfl : y = y' := Option.some.inj h
    exact hrefl y
  | cons e es ih =>
    obtain ⟨z, hz, hrest⟩ := runEvents_cons_inv h
    exact htrans y z y' (hevent e y z (hes e List.mem_cons_self) hz)
      (ih (fun e' he' => hes e' (List.mem_cons_of_mem _ he')) hrest)

/-- Settles O56: every event keeps the canonical form and the number of CPUs, and every event but a reset changes
the array by writes. -/
theorem everyInterleavingKeepsArray : Obligations.EveryInterleavingKeepsArray := by
  intro cfg es y y' h
  have hkeeps := runEvents_induct (P := fun _ => True)
    (R := fun y z => (Memory.wf y.mem = true → Memory.wf z.mem = true) ∧ z.cpus.length = y.cpus.length)
    (fun _ => ⟨id, rfl⟩) (fun _ _ _ _ happly => apply_keeps happly)
    (fun _ _ _ hxy hyz => ⟨hyz.1 ∘ hxy.1, hyz.2.trans hxy.2⟩) (fun _ _ => trivial) h
  refine ⟨hkeeps.1, hkeeps.2, fun hes => ?_⟩
  have hwrites := runEvents_induct (P := fun e => ∀ image, e ≠ .reset image) (R := fun y z => Writes y.mem z.mem)
    (fun _ => .refl) (fun _ _ _ he happly => apply_writes he happly) (fun _ _ _ => Writes.trans) hes h
  exact hwrites.keepsWritten

/-! A halted CPU between its cycles (R40, R113). -/

theorem apply_access_halted (cfg : Config) {y : System} {k : Nat} {c : Instance} (hc : y.cpus[k]? = some c)
    (hrun : c.run = .halted) (hflight : c.flight = .idle) : System.apply cfg (.access k) y = some y := by
  have hnone : request c.flight (c.view y.mem) = none := by
    rw [hflight]
    exact request_halted hrun
  rw [apply_access cfg hc, accessStep_of_no_request hnone, System.withInstance_view hc]

/-- An event other than a reset or a host write through it leaves a halted CPU as it is. -/
theorem apply_keeps_halted {cfg : Config} {e : Event} {y y' : System} {k : Nat} {c : Instance}
    (hc : y.cpus[k]? = some c) (hrun : c.run = .halted) (hflight : c.flight = .idle)
    (he : (∀ image, e ≠ .reset image) ∧ ∀ a v, e ≠ .hostWrite k a v) (h : System.apply cfg e y = some y') :
    y'.cpus[k]? = some c := by
  cases e with
  | reset image => exact absurd rfl (he.1 image)
  | access j =>
    by_cases hjk : k = j
    · subst hjk
      obtain rfl := Option.some.inj ((apply_access_halted cfg hc hrun hflight).symm.trans h)
      exact hc
    · obtain ⟨c', -, rfl⟩ := apply_access_inv h
      rwa [y.withInstance_other hjk]
  | hostWrite j a v =>
    have hjk : k ≠ j := by
      rintro rfl
      exact he.2 a v rfl
    obtain ⟨c', -, rfl⟩ := apply_hostWrite_inv h
    rwa [y.withInstance_other hjk]

/-- Settles O57: its turn changes nothing, and no event of the others reaches its registers. -/
theorem haltedInstanceIsSilent : Obligations.HaltedInstanceIsSilent := by
  intro cfg y k c hc hrun hflight
  refine ⟨?_, apply_access_halted cfg hc hrun hflight, fun es y' hes h => ?_⟩
  · rw [hflight]
    exact request_halted hrun
  · exact runEvents_induct (R := fun y z => y.cpus[k]? = some c → z.cpus[k]? = some c) (fun _ => id)
      (fun _ _ _ he happly hy => apply_keeps_halted hy hrun hflight he happly)
      (fun _ _ _ hxy hyz => hyz ∘ hxy) hes h hc

/-! The simulation (R22, R39): a CPU whose accesses nothing interrupts makes one exclusive-mode cycle. -/

/-- One access of CPU `k`, standing in the system as `f` and `s` say. -/
theorem apply_access_withInstance (cfg : Config) {y : System} {k : Nat} {c : Instance} (hc : y.cpus[k]? = some c)
    (f : Flight) (s : State) :
    System.apply cfg (.access k) (y.withInstance k f s) =
      some (y.withInstance k (accessStep f s).1 (accessStep f s).2) := by
  rw [apply_access cfg (System.withInstance_same hc f s), System.withInstance_withInstance]
  rfl

theorem runEvents_of_completes (cfg : Config) {y : System} {k : Nat} {c : Instance} (hc : y.cpus[k]? = some c)
    {f : Flight} {s t : State} {tr : List Access} (h : Completes f s tr t) :
    System.runEvents cfg (List.replicate tr.length (.access k)) (y.withInstance k f s) =
      some (y.withInstance k .idle t) := by
  induction h with
  | @last f s t q hq hr =>
    have happly := apply_access_withInstance cfg hc f s
    rw [accessStep_of_request hq, hr] at happly
    exact runEvents_cons cfg happly []
  | @more f f' s s' t q tr hq hr hf rest ih =>
    have happly := apply_access_withInstance cfg hc f s
    rw [accessStep_of_request hq, hr] at happly
    rw [List.length_cons, List.replicate_succ, runEvents_cons cfg happly]
    exact ih

/-- Settles O53: a halted CPU makes no access, and a running one the accesses of its cycle. -/
theorem uninterruptedAccessesAreOneCycle : Obligations.UninterruptedAccessesAreOneCycle := by
  intro cfg y k c hc hflight
  have hsystem : y.withInstance k .idle (c.view y.mem) = y := by
    rw [← hflight, System.withInstance_view hc]
  cases hrun : (c.view y.mem).run with
  | halted =>
    exact ⟨[], _, step_halted hrun, cycleAccesses_halted hrun, Nat.zero_le _, congrArg some hsystem.symm⟩
  | running =>
    obtain ⟨tr, t, hstep, haccesses, hcompletes, hlen⟩ := completes_cycle hrun
    have hevents := runEvents_of_completes cfg hc hcompletes
    rw [hsystem] at hevents
    exact ⟨tr, t, hstep, haccesses, hlen, hevents⟩

end Sys2Proof.Machine
end
